-- ==== Sys2Proof/Word.lean ====
section
/-!
DEFINITION. The words of this hardware: bit 0 is the least significant bit (00_scope.md R9).
-/
namespace Sys2Proof

/-- The value of `MPAMF_IDR`; in the 32-bit layout its upper half is zero (R47). -/
abbrev Word64 := BitVec 64

/-- One half of the register (R64). -/
abbrev Word32 := BitVec 32

/-- A byte of the register (R64). -/
abbrev Byte := BitVec 8

/-- A resource instance number, `0 .. 15`, and the selector that holds one (R26, R51). -/
abbrev RisNum := BitVec 4

/-- A requester: the spec gives neither their number nor identifiers (R8, R150). -/
abbrev Requester := Nat

end Sys2Proof
end

