-- ==== Sys2Proof/Syntax.lean ====
section
/-!
DEFINITION. Frames, accesses, the twelve access operations (the "instructions" of this hardware, 30_encoding.md R85)
and the events that reach the MSC.
-/
namespace Sys2Proof

/-- The two MPAM feature page frames, and the two memory maps that hold them (R60). -/
inductive Frame where
  | secure
  | nonSecure
deriving DecidableEq, Repr

/-- One thing for each frame. -/
structure PerFrame (α : Type) where
  s  : α
  ns : α
deriving DecidableEq, Repr

/-- What the pair holds for a frame. -/
def PerFrame.get {α : Type} (x : PerFrame α) : Frame → α
  | .secure => x.s
  | .nonSecure => x.ns

/-- The pair with one frame's part replaced. -/
def PerFrame.set {α : Type} (x : PerFrame α) (f : Frame) (a : α) : PerFrame α :=
  match f with
  | .secure => { x with s := a }
  | .nonSecure => { x with ns := a }

/-- Kinds of access that are neither read nor write: R72 names the first three, R73 the fetch; `unnamed` stands for
any further kind a requester may have. -/
inductive OtherKind where
  | atomic
  | exclusive
  | cacheMaintenance
  | instructionFetch
  | unnamed
deriving DecidableEq, Repr

/-- The kind of an access; a write carries its data, a number of `8n` bits (R85, R100). -/
inductive Kind where
  | read
  | write (data : Nat)
  | other (k : OtherKind)
deriving DecidableEq, Repr

/-- The data of a write; 0 for every other kind. -/
def Kind.data : Kind → Nat
  | .write d => d
  | .read => 0
  | .other _ => 0

/-- One access by offset: the inputs of R86, `(kind, f, off, n)` from requester `q`. -/
structure Access where
  requester : Requester
  kind      : Kind
  frame     : Frame
  offset    : Nat
  size      : Nat
deriving DecidableEq, Repr

/-- One access by address in a memory map: `MemRead(addr, n)` and `MemWrite(addr, n, v)` (R12, R100). The width of an
address is not given (R8), so it is a number. -/
structure MemAccess where
  requester : Requester
  kind      : Kind
  map       : Frame
  address   : Nat
  size      : Nat
deriving DecidableEq, Repr

/-- What reaches the MSC, one at a time, in the device order (R70; the interactions of R171). -/
inductive Event where
  /-- An access to a feature page, by offset. -/
  | access (a : Access)
  /-- An access to a memory map, by address. -/
  | memory (m : MemAccess)
  /-- The environment step `SetRIS(f, n)` (R52). -/
  | setRis (f : Frame) (n : RisNum)
  /-- The power domain is switched on or off (R152, R171). -/
  | power (on : Bool)
deriving DecidableEq, Repr

/-- The twelve access operations, one constructor per row of the selector table (R85). `q` is the requester (R100),
`d` the data of a write (R105). -/
inductive Instr where
  | rd32lS  (q : Requester)
  | rd32lNS (q : Requester)
  | rd32hS  (q : Requester)
  | rd32hNS (q : Requester)
  | rd64S   (q : Requester)
  | rd64NS  (q : Requester)
  | wr32lS  (q : Requester) (d : Word32)
  | wr32lNS (q : Requester) (d : Word32)
  | wr32hS  (q : Requester) (d : Word32)
  | wr32hNS (q : Requester) (d : Word32)
  | wr64S   (q : Requester) (d : Word64)
  | wr64NS  (q : Requester) (d : Word64)
deriving DecidableEq, Repr

/-- `RD32L.f`. -/
def Instr.rd32l : Frame → Requester → Instr
  | .secure => .rd32lS
  | .nonSecure => .rd32lNS

/-- `RD32H.f`. -/
def Instr.rd32h : Frame → Requester → Instr
  | .secure => .rd32hS
  | .nonSecure => .rd32hNS

/-- `RD64.f`. -/
def Instr.rd64 : Frame → Requester → Instr
  | .secure => .rd64S
  | .nonSecure => .rd64NS

/-- `WR32L.f, d`. -/
def Instr.wr32l : Frame → Requester → Word32 → Instr
  | .secure => .wr32lS
  | .nonSecure => .wr32lNS

/-- `WR32H.f, d`. -/
def Instr.wr32h : Frame → Requester → Word32 → Instr
  | .secure => .wr32hS
  | .nonSecure => .wr32hNS

/-- `WR64.f, d`. -/
def Instr.wr64 : Frame → Requester → Word64 → Instr
  | .secure => .wr64S
  | .nonSecure => .wr64NS

/-- The spelling of R91 (decision D12). -/
def Instr.mnemonic : Instr → String
  | .rd32lS _ => "RD32L.S"
  | .rd32lNS _ => "RD32L.NS"
  | .rd32hS _ => "RD32H.S"
  | .rd32hNS _ => "RD32H.NS"
  | .rd64S _ => "RD64.S"
  | .rd64NS _ => "RD64.NS"
  | .wr32lS _ _ => "WR32L.S"
  | .wr32lNS _ _ => "WR32L.NS"
  | .wr32hS _ _ => "WR32H.S"
  | .wr32hNS _ _ => "WR32H.NS"
  | .wr64S _ _ => "WR64.S"
  | .wr64NS _ _ => "WR64.NS"

/-- The requester that issues the operation (R100). -/
def Instr.requester : Instr → Requester
  | .rd32lS q | .rd32lNS q | .rd32hS q | .rd32hNS q | .rd64S q | .rd64NS q => q
  | .wr32lS q _ | .wr32lNS q _ | .wr32hS q _ | .wr32hNS q _ | .wr64S q _ | .wr64NS q _ => q

/-- The frame the operation reaches (R85). -/
def Instr.frame : Instr → Frame
  | .rd32lS _ | .rd32hS _ | .rd64S _ | .wr32lS _ _ | .wr32hS _ _ | .wr64S _ _ => .secure
  | .rd32lNS _ | .rd32hNS _ | .rd64NS _ | .wr32lNS _ _ | .wr32hNS _ _ | .wr64NS _ _ => .nonSecure

/-- The operation is a read (R85, column kind). -/
def Instr.isRead : Instr → Bool
  | .rd32lS _ | .rd32lNS _ | .rd32hS _ | .rd32hNS _ | .rd64S _ | .rd64NS _ => true
  | .wr32lS _ _ | .wr32lNS _ _ | .wr32hS _ _ | .wr32hNS _ _ | .wr64S _ _ | .wr64NS _ _ => false

/-- The operation is admitted only when `RegWidth == 64` (R85, column "admitted when"). -/
def Instr.needs64 : Instr → Bool
  | .rd32lS _ | .rd32lNS _ | .wr32lS _ _ | .wr32lNS _ _ => false
  | .rd32hS _ | .rd32hNS _ | .rd64S _ | .rd64NS _ => true
  | .wr32hS _ _ | .wr32hNS _ _ | .wr64S _ _ | .wr64NS _ _ => true

end Sys2Proof
end

