-- ==== Sys2Proof/Config.lean ====
section
/-!
DEFINITION. What one implementation fixes (the parameters of 00_scope.md R7) and the free values.
-/
namespace Sys2Proof

/-- What a requester is told when it writes the register: the open parameter of R7, R105 (D10). -/
inductive WriteResponse where
  | ignored
  | error
deriving DecidableEq, Repr

/-- The parameters of R7: constants of one implementation, which no step changes (R56). They are plain data, so that a
claim about every implementation is a claim over every value of this record (log entry 1). -/
structure Impl where
  /-- `FEAT_MPAM` is implemented: `HaveMPAM`. -/
  featMPAM      : Bool
  /-- `FEAT_MPAMv0p1` is implemented. -/
  featMPAMv0p1  : Bool
  /-- `FEAT_MPAMv1p1` is implemented. -/
  featMPAMv1p1  : Bool
  /-- The system supports Secure and Non-secure memory maps: `HasSecureMap`. -/
  hasSecureMap  : Bool
  /-- Which feature pages exist: `Frames`. -/
  frames        : PerFrame Bool
  /-- `MPAMF_BASE_s` and `MPAMF_BASE_ns`. -/
  base          : PerFrame Nat
  /-- `FRAME_SIZE`, in bytes. -/
  frameSize     : Nat
  /-- `IDR`: the register's contents for each frame and each resource instance number. -/
  idr           : PerFrame (Vector Word64 16)
  /-- `WriteResponse`. -/
  writeResponse : WriteResponse
  /-- The pairs for which `MayReach` is false; it is true of every other pair (log entry 10). -/
  barred        : List (Requester × Frame)
deriving DecidableEq, Repr

/-- `HaveMPAMExt`: either version feature makes the register 64 bits wide (R3, R7; 90_conflicts.md C2). -/
def Impl.haveMPAMExt (p : Impl) : Bool := p.featMPAMv0p1 || p.featMPAMv1p1

/-- `IDR[f][r]`. -/
def Impl.idrOf (p : Impl) (f : Frame) (r : RisNum) : Word64 := (p.idr.get f)[r.toNat]'(r.isLt)

/-- FREE VALUE. The selector a power change leaves behind is "any value in `0..15`" (R152, U9): nothing constrains this
constant. It is applied to `State.draws`, which counts the values used (log entry 8). -/
opaque Config.freeRisSel : Nat → RisNum

/-- DESIGN CHOICE (log entry 2). The implementation `State.reset` stands on: configuration G64 of 95_test_vectors.md
section 2.4. What G64 leaves out is chosen here: `hasSecureMap` true, the bases, the frame size, which version feature,
and the contents no rule reads. No statement about every machine rests on it. -/
def Config.g64 : Impl where
  featMPAM := true
  featMPAMv0p1 := false
  featMPAMv1p1 := true
  hasSecureMap := true
  frames := ⟨true, true⟩
  base := ⟨0, 0⟩
  frameSize := 0x10000
  idr :=
    { s := #v[0x00000000_4200001F#64, 0, 0, 0, 0, 0, 0, 0, 0, 0, 0, 0, 0, 0, 0, 0]
      ns := #v[0x030000C1_D30300FF#64, 0x030000C1_D20300FF#64, 0x030000C1_DC0300FF#64, 0x030000C1_D00300FF#64,
        0, 0, 0, 0, 0, 0, 0, 0, 0, 0, 0, 0] }
  writeResponse := .ignored
  barred := []

end Sys2Proof
end

