-- ==== Sys2Proof/WellFormed.lean ====
section
/-!
DEFINITION. What the spec requires of the register's contents (10_state.md R43 to R50), of an implementation (R7, R61,
R66, D2) and of the data of an access (R100). Abbreviations of decidable propositions, so that `decide` runs on them.
-/
namespace Sys2Proof

/-- `RES0_64`, the reserved bits of the 64-bit layout (R42). -/
def res0_64 : Word64 := 0xF0FFFF0E_00000000#64

/-- `DEFINED_64`, the bits of the 64-bit layout that can be non-zero (R42). -/
def defined64 : Word64 := 0x0F0000F1_FFFFFFFF#64

/-- `DEFINED_32`, the bits of the 32-bit layout that can be non-zero (R42). -/
def defined32 : Word64 := 0x00000000_EFFFFFFF#64

/-- `RISDEP`, the bits that follow the selected resource instance (R48). -/
def risDep : Word64 := 0x00000030_0F000000#64

/-- `WFval` in the 64-bit layout: R43 (both parts), R44, R45, R46. -/
abbrev WFval64 (v : Word64) : Prop :=
  v &&& res0_64 = 0#64
    ∧ (v.getLsbD 28 = false → v.extractLsb' 32 32 = 0#32)
    ∧ (v.getLsbD 32 = false → v.extractLsb' 56 4 = 0#4)
    ∧ (v.getLsbD 29 = false → v.getLsbD 37 = false ∧ v.getLsbD 36 = false)
    ∧ (v.getLsbD 32 = true ∧ v.getLsbD 39 = true → v.getLsbD 38 = true)

/-- `WFval` in the 32-bit layout: R47. -/
abbrev WFval32 (v : Word64) : Prop :=
  v.extractLsb' 32 32 = 0#32 ∧ v.getLsbD 28 = false

/-- `WFval` (R50); `ext` is `HaveMPAMExt`. -/
abbrev WFval (ext : Bool) (v : Word64) : Prop := if ext = true then WFval64 v else WFval32 v

/-- `RIS_MAX(f) = IDR[f][0][59:56]` (R50). -/
def Impl.risMaxOf (p : Impl) (f : Frame) : RisNum := (p.idrOf f 0#4).extractLsb' 56 4

/-- The part of `WF(IDR)` about one frame: every implemented resource instance has a well-formed value, and all of them
agree outside `RISDEP` (R48, R50). -/
abbrev Impl.WFframe (p : Impl) (f : Frame) : Prop :=
  p.frames.get f = true → ∀ r : RisNum, r ≤ p.risMaxOf f →
    WFval p.haveMPAMExt (p.idrOf f r) ∧ p.idrOf f r &&& ~~~risDep = p.idrOf f 0#4 &&& ~~~risDep

/-- `WFframe` as a Boolean, so that `decide` runs on the whole predicate. -/
def Impl.wfFrame (p : Impl) (f : Frame) : Bool := decide (p.WFframe f)

@[simp] theorem Impl.wfFrame_eq_true_iff (p : Impl) (f : Frame) : p.wfFrame f = true ↔ p.WFframe f := by
  simp only [Impl.wfFrame, decide_eq_true_eq]

/-- `WF(IDR)` (R50). -/
abbrev Impl.WFidr (p : Impl) : Prop :=
  p.featMPAM = true → p.wfFrame .secure = true ∧ p.wfFrame .nonSecure = true

/-- All the spec requires of an implementation: a version feature implies `FEAT_MPAM` (D2); some frame exists, and both
where both maps are supported (R61, D3); the bases are multiples of 8 (R66, D6); `WF(IDR)` (R50). -/
abbrev Impl.WF (p : Impl) : Prop :=
  (p.haveMPAMExt = true → p.featMPAM = true)
    ∧ (p.frames.s = true ∨ p.frames.ns = true)
    ∧ (p.hasSecureMap = true → p.frames.s = true ∧ p.frames.ns = true)
    ∧ (p.base.s % 8 = 0 ∧ p.base.ns % 8 = 0)
    ∧ p.WFidr

/-- A write's data is a number of `8n` bits (R100). -/
abbrev Access.WF (a : Access) : Prop := a.kind.data < 2 ^ (8 * a.size)

/-- An access that the packed form of Decode.lean can hold: a 16-bit offset, as the table writes it (R85), a size below
256 and data of at most 64 bits (log entry 7). -/
abbrev Access.Packable (a : Access) : Prop := a.offset < 2 ^ 16 ∧ a.size < 2 ^ 8 ∧ a.kind.data < 2 ^ 64

/-- The operation belongs to a register of this layout (R85, column "admitted when"); `ext` is `HaveMPAMExt`. -/
abbrev Instr.WF (ext : Bool) (i : Instr) : Prop := i.needs64 = true → ext = true

end Sys2Proof
end

