-- ==== Sys2Proof/Decode.lean ====
section
/-!
DEFINITION. Selecting the operation of an access by kind, frame, offset and size (30_encoding.md R85), the encoder, and
the packed form of an access, which is the model's own (log entry 7): the table's 16 bits are the offset alone.
-/
namespace Sys2Proof

/-- Which part of the register an admitted access covers (R65, R85). -/
inductive Part where
  | low
  | high
  | whole
deriving DecidableEq, Repr

/-- The three admitted pairs of offset and size: R86 (5), R65. -/
def selectPart (offset size : Nat) : Option Part :=
  if offset = 0 ∧ size = 4 then some .low
  else if offset = 4 ∧ size = 4 then some .high
  else if offset = 0 ∧ size = 8 then some .whole
  else none

/-- Why an access selects no row of R85 in any layout; the names are those of R86 (0), (4) and (5). -/
inductive DecodeError where
  /-- Neither a read nor a write: R86 (0), R72. -/
  | accessKindNotInSource
  /-- Beyond the last byte of the 64-bit register: R86 (4), R63. -/
  | offsetNotInScope
  /-- Inside the register, but of a size or alignment not admitted: R86 (5), R65. -/
  | accessSizeNotInSource
deriving DecidableEq, Repr

/-- The name of an access that no pair of R65 admits. -/
def noPart (offset size : Nat) : DecodeError :=
  if 8 ≤ offset ∨ 8 < offset + size then .offsetNotInScope else .accessSizeNotInSource

/-- The row of R85 an access selects. Whether the row is admitted in the layout at hand, and everything else R86 asks of
the machine, is checked when the operation runs (R101). -/
def decode (a : Access) : Except DecodeError Instr :=
  match a.kind, selectPart a.offset a.size, a.frame with
  | .other _, _, _ => .error .accessKindNotInSource
  | _, none, _ => .error (noPart a.offset a.size)
  | .read, some .low, .secure => .ok (.rd32lS a.requester)
  | .read, some .low, .nonSecure => .ok (.rd32lNS a.requester)
  | .read, some .high, .secure => .ok (.rd32hS a.requester)
  | .read, some .high, .nonSecure => .ok (.rd32hNS a.requester)
  | .read, some .whole, .secure => .ok (.rd64S a.requester)
  | .read, some .whole, .nonSecure => .ok (.rd64NS a.requester)
  | .write d, some .low, .secure => .ok (.wr32lS a.requester (BitVec.ofNat 32 d))
  | .write d, some .low, .nonSecure => .ok (.wr32lNS a.requester (BitVec.ofNat 32 d))
  | .write d, some .high, .secure => .ok (.wr32hS a.requester (BitVec.ofNat 32 d))
  | .write d, some .high, .nonSecure => .ok (.wr32hNS a.requester (BitVec.ofNat 32 d))
  | .write d, some .whole, .secure => .ok (.wr64S a.requester (BitVec.ofNat 64 d))
  | .write d, some .whole, .nonSecure => .ok (.wr64NS a.requester (BitVec.ofNat 64 d))

/-- The access that issues an operation: its row of R85. -/
def encode : Instr → Access
  | .rd32lS q => ⟨q, .read, .secure, 0x0000, 4⟩
  | .rd32lNS q => ⟨q, .read, .nonSecure, 0x0000, 4⟩
  | .rd32hS q => ⟨q, .read, .secure, 0x0004, 4⟩
  | .rd32hNS q => ⟨q, .read, .nonSecure, 0x0004, 4⟩
  | .rd64S q => ⟨q, .read, .secure, 0x0000, 8⟩
  | .rd64NS q => ⟨q, .read, .nonSecure, 0x0000, 8⟩
  | .wr32lS q d => ⟨q, .write d.toNat, .secure, 0x0000, 4⟩
  | .wr32lNS q d => ⟨q, .write d.toNat, .nonSecure, 0x0000, 4⟩
  | .wr32hS q d => ⟨q, .write d.toNat, .secure, 0x0004, 4⟩
  | .wr32hNS q d => ⟨q, .write d.toNat, .nonSecure, 0x0004, 4⟩
  | .wr64S q d => ⟨q, .write d.toNat, .secure, 0x0000, 8⟩
  | .wr64NS q d => ⟨q, .write d.toNat, .nonSecure, 0x0000, 8⟩

/-- The kind field of the packed form. -/
def kindCode : Kind → Nat
  | .read => 0
  | .write _ => 1
  | .other .atomic => 2
  | .other .exclusive => 3
  | .other .cacheMaintenance => 4
  | .other .instructionFetch => 5
  | .other .unnamed => 6

/-- The kind a packed form stands for; every code has one. -/
def kindOfCode (code data : Nat) : Kind :=
  match code with
  | 0 => .read
  | 1 => .write data
  | 2 => .other .atomic
  | 3 => .other .exclusive
  | 4 => .other .cacheMaintenance
  | 5 => .other .instructionFetch
  | _ => .other .unnamed

/-- The frame bit of the packed form. -/
def frameCode : Frame → Nat
  | .secure => 0
  | .nonSecure => 1

/-- The frame a frame bit stands for. -/
def frameOfCode : Nat → Frame
  | 0 => .secure
  | _ => .nonSecure

/-- DESIGN CHOICE (log entry 7). The packed form of an access, one number: the offset in bits [15:0], as the table has
it, the kind in [18:16], the frame in [19], the size in bytes exclusive-or 4 in [27:20], zeros in [31:28], the data of a
write in [95:32], the requester from bit 96 on. -/
def pack (a : Access) : Nat :=
  a.offset + 2 ^ 16 * kindCode a.kind + 2 ^ 19 * frameCode a.frame + 2 ^ 20 * (a.size ^^^ 4)
    + 2 ^ 32 * a.kind.data + 2 ^ 96 * a.requester

/-- The access a packed form stands for; total on every number. -/
def unpack (w : Nat) : Access where
  requester := w / 2 ^ 96
  kind := kindOfCode (w / 2 ^ 16 % 8) (w / 2 ^ 32 % 2 ^ 64)
  frame := frameOfCode (w / 2 ^ 19 % 2)
  offset := w % 2 ^ 16
  size := (w / 2 ^ 20 % 2 ^ 8) ^^^ 4

/-- The packed form of an operation. -/
def encodeWord (i : Instr) : Nat := pack (encode i)

/-- The operation a packed form selects. -/
def decodeWord (w : Nat) : Except DecodeError Instr := decode (unpack w)

/-- The operation read from `nbits` bits of the packed form, every bit above them 0. The table gives each row the
offset alone, so a table word reads as the Secure 32-bit read at that offset (log entry 7). -/
def decodeTableWord (nbits w : Nat) : Option Instr :=
  match decodeWord (w % 2 ^ nbits) with
  | .ok i => some i
  | .error _ => none

end Sys2Proof
end

