-- ==== Sys2Proof/Machine/State.lean ====
section
/-!
DEFINITION. The state, the reasons a step can stop, and the machine after reset.
-/
namespace Sys2Proof.Machine

/-- Faults: there are none. The source describes no exception, interrupt or trap, and no rule produces a fault (R13,
R140). -/
inductive Fault where
deriving DecidableEq, Repr

/-- Refusals: accesses the spec gives no meaning (R86, R88). Each is safe: nothing is said of a run that holds one. -/
inductive Refusal where
  /-- An operation without a meaning yet; raised by a refused arm of `exec` only, and there is none. Safe. -/
  | notModelled (mnemonic : String)
  /-- The access is neither a read nor a write: R86 (0), R72. Raised by the check of every access. Safe. -/
  | accessKindNotInSource
  /-- The power domain is off: R86 (1), R152. Raised by the check of every access. Safe. -/
  | unpowered
  /-- The frame does not exist: R86 (2), R61. Raised by the check of every access. Safe. -/
  | noSuchFrame
  /-- The requester cannot reach the frame: R86 (3), R69. Raised by the check of every access. Safe. -/
  | frameNotReachable
  /-- The access is not wholly inside the register: R86 (4), R63. Raised by the check of every access. Safe. -/
  | offsetNotInScope
  /-- The size or alignment is not admitted: R86 (5), R65, R66. Raised by the check of every access. Safe. -/
  | accessSizeNotInSource
  /-- A read while the selector exceeds `RIS_MAX`: R53, D14. Raised by the six reads. Safe. -/
  | risOutOfRange
  /-- An access by address that lies in no feature page of its map: R12, R100 and log entry 11. Raised when a memory
  access is routed to a frame. Safe. -/
  | addressOutsideFrame
deriving DecidableEq, Repr

/-- What comes back to a requester: the bits a read returns, exactly as wide as the access (R100), or the response to a
write (R105). -/
inductive Reply where
  | word32 (v : Word32)
  | word64 (v : Word64)
  | response (r : WriteResponse)
deriving DecidableEq, Repr

/-- One answered access. -/
structure Answer where
  op    : Instr
  reply : Reply
deriving DecidableEq, Repr

/-- The state. `powered` and `risSel` are the spec's whole mutable state (R51, R56); `impl` holds the parameters of R7,
which no step changes (log entry 1); `queue`, `answers` and `draws` are the model's own (log entries 5 and 8). -/
structure State where
  /-- The implementation: the parameters of R7. -/
  impl    : Impl
  /-- `Powered` (R7, R152). -/
  powered : Bool
  /-- `ris_sel[f]`, the selected resource instance of each frame (R51). DESIGN CHOICE (log entry 32): one is kept for an
  absent frame too, where R51 gives none. -/
  risSel  : PerFrame RisNum
  /-- How many free values have been used. -/
  draws   : Nat
  /-- What is still to reach the MSC, in the device order (R70). -/
  queue   : List Event
  /-- What came back to the requesters, newest first (R100, R171). -/
  answers : List Answer
deriving DecidableEq, Repr

/-- The machine after reset, for an implementation, a level of the power domain and a selector value of each frame: the
spec leaves the three open (R55, R160). -/
def State.resetOf (p : Impl) (powered : Bool) (risSel : PerFrame RisNum) : State where
  impl := p
  powered := powered
  risSel := risSel
  draws := 0
  queue := []
  answers := []

/-- DESIGN CHOICE (log entries 2, 3, 4, 5). The machine right after reset: implementation G64, power on, both selectors
0, nothing to come and nothing answered. -/
def State.reset : State := State.resetOf Config.g64 true ⟨0#4, 0#4⟩

end Sys2Proof.Machine
end

