-- ==== Sys2Proof/Machine/Operands.lean ====
section
/-!
DEFINITION. The register's layout: its width, its sixteen fields (30_encoding.md R81 to R84), which of them are present
(10_state.md R24, R25) and which follow the selected resource instance (R48), and the bytes and halves of a value (R64).
-/
namespace Sys2Proof.Machine

/-- `RegWidth`: 64 with `HaveMPAMExt`, else 32 (R21). -/
def regWidth (p : Impl) : Nat := if p.haveMPAMExt = true then 64 else 32

/-- The size of the register in bytes, `RegWidth/8` (R62). -/
def regBytes (p : Impl) : Nat := regWidth p / 8

/-- Bits [31:0]: the word at offset `0x0000` (R64). -/
def lowHalf (v : Word64) : Word32 := v.extractLsb' 0 32

/-- Bits [63:32]: the word at offset `0x0004` (R64). -/
def highHalf (v : Word64) : Word32 := v.extractLsb' 32 32

/-- Bits `[8k+7 : 8k]`: the byte at offset `k` (R64). -/
def byteOf (v : Word64) (k : Nat) : Byte := v.extractLsb' (8 * k) 8

/-- The sixteen fields of `MPAMF_IDR` (R24). -/
inductive Field where
  | risMax
  | hasEsr
  | hasExtdEsr
  | noImplMsmon
  | noImplPart
  | hasRis
  | hasPartidNrw
  | hasMsmon
  | hasImplIdr
  | ext
  | hasPriPart
  | hasMbwPart
  | hasCporPart
  | hasCcapPart
  | pmgMax
  | partidMax
deriving DecidableEq, Repr

/-- All fields, from the most significant down (R81). -/
def Field.all : List Field :=
  [.risMax, .hasEsr, .hasExtdEsr, .noImplMsmon, .noImplPart, .hasRis, .hasPartidNrw, .hasMsmon, .hasImplIdr, .ext,
   .hasPriPart, .hasMbwPart, .hasCporPart, .hasCcapPart, .pmgMax, .partidMax]

/-- `mask(name)` (R81). -/
def Field.mask : Field → Word64
  | .risMax => 0x0F000000_00000000#64
  | .hasEsr => 0x00000080_00000000#64
  | .hasExtdEsr => 0x00000040_00000000#64
  | .noImplMsmon => 0x00000020_00000000#64
  | .noImplPart => 0x00000010_00000000#64
  | .hasRis => 0x00000001_00000000#64
  | .hasPartidNrw => 0x00000000_80000000#64
  | .hasMsmon => 0x00000000_40000000#64
  | .hasImplIdr => 0x00000000_20000000#64
  | .ext => 0x00000000_10000000#64
  | .hasPriPart => 0x00000000_08000000#64
  | .hasMbwPart => 0x00000000_04000000#64
  | .hasCporPart => 0x00000000_02000000#64
  | .hasCcapPart => 0x00000000_01000000#64
  | .pmgMax => 0x00000000_00FF0000#64
  | .partidMax => 0x00000000_0000FFFF#64

/-- `lo(name)`, the lowest bit of the field (R24). -/
def Field.lo : Field → Nat
  | .risMax => 56
  | .hasEsr => 39
  | .hasExtdEsr => 38
  | .noImplMsmon => 37
  | .noImplPart => 36
  | .hasRis => 32
  | .hasPartidNrw => 31
  | .hasMsmon => 30
  | .hasImplIdr => 29
  | .ext => 28
  | .hasPriPart => 27
  | .hasMbwPart => 26
  | .hasCporPart => 25
  | .hasCcapPart => 24
  | .pmgMax => 16
  | .partidMax => 0

/-- The width of the field in bits (R24). -/
def Field.width : Field → Nat
  | .risMax => 4
  | .pmgMax => 8
  | .partidMax => 16
  | .hasEsr | .hasExtdEsr | .noImplMsmon | .noImplPart | .hasRis | .hasPartidNrw | .hasMsmon | .hasImplIdr | .ext
  | .hasPriPart | .hasMbwPart | .hasCporPart | .hasCcapPart => 1

/-- `Field(v, name) = (v & mask(name)) >> lo(name)`, unsigned (R83). -/
def extractField (v : Word64) (x : Field) : Word64 := (v &&& x.mask) >>> x.lo

/-- `RIS_MAX(v) = v[59:56]` (R26, R83). -/
def risMax (v : Word64) : RisNum := v.extractLsb' 56 4
/-- `HAS_ESR(v) = v[39]` (R27, R83). -/
def hasEsr (v : Word64) : Bool := v.getLsbD 39
/-- `HAS_EXTD_ESR(v) = v[38]` (R28, R83). -/
def hasExtdEsr (v : Word64) : Bool := v.getLsbD 38
/-- `NO_IMPL_MSMON(v) = v[37]` (R29, R83); 1 means none. -/
def noImplMsmon (v : Word64) : Bool := v.getLsbD 37
/-- `NO_IMPL_PART(v) = v[36]` (R30, R83); 1 means none. -/
def noImplPart (v : Word64) : Bool := v.getLsbD 36
/-- `HAS_RIS(v) = v[32]` (R31, R83). -/
def hasRis (v : Word64) : Bool := v.getLsbD 32
/-- `HAS_PARTID_NRW(v) = v[31]` (R32, R83). -/
def hasPartidNrw (v : Word64) : Bool := v.getLsbD 31
/-- `HAS_MSMON(v) = v[30]` (R33, R83). -/
def hasMsmon (v : Word64) : Bool := v.getLsbD 30
/-- `HAS_IMPL_IDR(v) = v[29]` (R34, R83). -/
def hasImplIdr (v : Word64) : Bool := v.getLsbD 29
/-- `EXT(v) = v[28]` (R35, R83). -/
def ext (v : Word64) : Bool := v.getLsbD 28
/-- `HAS_PRI_PART(v) = v[27]` (R36, R83). -/
def hasPriPart (v : Word64) : Bool := v.getLsbD 27
/-- `HAS_MBW_PART(v) = v[26]` (R37, R83). -/
def hasMbwPart (v : Word64) : Bool := v.getLsbD 26
/-- `HAS_CPOR_PART(v) = v[25]` (R38, R83). -/
def hasCporPart (v : Word64) : Bool := v.getLsbD 25
/-- `HAS_CCAP_PART(v) = v[24]` (R39, R83). -/
def hasCcapPart (v : Word64) : Bool := v.getLsbD 24
/-- `PMG_MAX(v) = v[23:16]` (R40, R83). -/
def pmgMax (v : Word64) : BitVec 8 := v.extractLsb' 16 8
/-- `PARTID_MAX(v) = v[15:0]` (R41, R83). -/
def partidMax (v : Word64) : BitVec 16 := v.extractLsb' 0 16

/-- The field exists in the layout: all do in the 64-bit layout (R24), those of bits [31:0] in the 32-bit one (R25),
where `EXT` is a position that reads 0 (R35). -/
def Field.inLayout (is64 : Bool) (x : Field) : Bool := is64 || (x.lo < 32 && x != .ext)

/-- The field is present in a value of the layout, that is, its "When" condition holds; else it is RES0 (R24, column
"present when"; R26 to R35). -/
def fieldPresent (is64 : Bool) (v : Word64) (x : Field) : Bool :=
  x.inLayout is64 &&
    match x with
    | .risMax => ext v && hasRis v
    | .hasEsr | .hasExtdEsr | .hasRis => ext v
    | .noImplMsmon | .noImplPart => ext v && hasImplIdr v
    | .hasPartidNrw | .hasMsmon | .hasImplIdr | .ext | .hasPriPart | .hasMbwPart | .hasCporPart | .hasCcapPart
    | .pmgMax | .partidMax => true

/-- The field's description mentions RIS: its value follows the selected resource instance (R48). -/
def Field.dependsOnRis : Field → Bool
  | .noImplMsmon | .noImplPart | .hasPriPart | .hasMbwPart | .hasCporPart | .hasCcapPart => true
  | .risMax | .hasEsr | .hasExtdEsr | .hasRis | .hasPartidNrw | .hasMsmon | .hasImplIdr | .ext | .pmgMax | .partidMax =>
    false

end Sys2Proof.Machine
end

