-- ==== Sys2Proof/Machine/Flags.lean ====
section
/-!
DEFINITION. There are no condition flags and no operation writes one (10_state.md R20, 40_access_operations.md). The
flags of this hardware are the one-bit fields of the register (30_encoding.md R84): this file says what a value that was
read means, each predicate with its presence condition (41_feature_discovery.md R120 to R128). `none` is "the register
says nothing".
-/
namespace Sys2Proof.Machine

/-- What the value tells of the layout in force (R121): `EXT == 1` is possible only in the 64-bit layout. -/
def knownIs64 (v : Word64) : Option Bool := if ext v = true then some true else none

/-- The upper half holds something, so reading it is worth the access (R121). -/
def highHalfDefined (v : Word64) : Bool := ext v

/-- `MPAMF_ESR`, `MPAMF_ECR` and MPAM error handling are implemented (R123). -/
def errorHandling (v : Word64) : Option Bool := if ext v = true then some (hasEsr v) else none

/-- `MPAMF_ESR` is 64 bits wide; without `MPAMF_ESR` the bit has no meaning (R123, R28). -/
def esrIs64Bits (v : Word64) : Option Bool :=
  if ext v = true ∧ hasEsr v = true then some (hasExtdEsr v) else none

/-- `MPAMF_IMPL_IDR` defines at least one IMPLEMENTATION DEFINED resource control (R124; the bit's 1 means none). -/
def implControls (v : Word64) : Option Bool :=
  if ext v = true ∧ hasImplIdr v = true then some (!noImplPart v) else none

/-- `MPAMF_IMPL_IDR` defines at least one IMPLEMENTATION DEFINED resource monitor (R124; the bit's 1 means none). -/
def implMonitors (v : Word64) : Option Bool :=
  if ext v = true ∧ hasImplIdr v = true then some (!noImplMsmon v) else none

/-- `MPAMCFG_PART_SEL` implements the `RIS` field (R125). -/
def risSelector (v : Word64) : Option Bool := if ext v = true then some (hasRis v) else none

/-- How many resource instances there are (R125): `RIS_MAX + 1` with a selector, one set of properties without. -/
def resourceInstances (v : Word64) : Option Nat :=
  if ext v = true then some (if hasRis v = true then (risMax v).toNat + 1 else 1) else none

/-- The MSC supports this PARTID value (R126, R84: an inclusive maximum). -/
def partidSupported (v : Word64) (n : Nat) : Bool := n ≤ (partidMax v).toNat

/-- The MSC supports this PMG value (R126, R84: an inclusive maximum). -/
def pmgSupported (v : Word64) (n : Nat) : Bool := n ≤ (pmgMax v).toNat

/-- The other registers the source names (R5). -/
inductive OtherRegister where
  | mpamcfgPartSel
  | mpamfEsr
  | mpamfEcr
  | mpamfImplIdr
  | mpamfPartidNrwIdr
  | mpamcfgIntpartid
  | mpamfMsmonIdr
  | mpamfPriIdr
  | mpamfMbwIdr
  | mpamfCporIdr
  | mpamcfgCpbm
  | mpamfCcapIdr
  | mpamcfgCmax
deriving DecidableEq, Repr

/-- Whether the value tells that a register exists in the frame it was read from (R122, R123, R128), for the selected
resource instance where the field depends on it. `MPAMF_IDR` never tells whether `MPAMCFG_PART_SEL` itself exists, only
whether it has the `RIS` field. -/
def registerExists (v : Word64) : OtherRegister → Option Bool
  | .mpamcfgPartSel => none
  | .mpamfEsr | .mpamfEcr => errorHandling v
  | .mpamfImplIdr => some (hasImplIdr v)
  | .mpamfPartidNrwIdr | .mpamcfgIntpartid => some (hasPartidNrw v)
  | .mpamfMsmonIdr => some (hasMsmon v)
  | .mpamfPriIdr => some (hasPriPart v)
  | .mpamfMbwIdr => some (hasMbwPart v)
  | .mpamfCporIdr | .mpamcfgCpbm => some (hasCporPart v)
  | .mpamfCcapIdr | .mpamcfgCmax => some (hasCcapPart v)

end Sys2Proof.Machine
end

