-- ==== Sys2Proof/Machine/Ops.lean ====
section
/-!
DEFINITION. The named operations of the MSC: the value the register shows (10_state.md R53), the checks on an access
(30_encoding.md R86), answering a read and a write (40_access_operations.md R100 to R107), and the environment's steps
(R52, R152). Taking an exception and returning from one do not exist on this hardware (60_exceptions.md R140, R144,
R145), so there is no operation for them.
-/
namespace Sys2Proof.Machine

/-- `MayReach(q, f)` (R7, R69). -/
def mayReach (p : Impl) (q : Requester) (f : Frame) : Bool := decide ((q, f) ∉ p.barred)

/-- `IDRValue(f)` (R53): 0 without `FEAT_MPAM` (R22); the one value of a frame without resource instances; the selected
instance's value; `none` where the selector exceeds `RIS_MAX` and the spec refuses (D14). -/
def idrValue (s : State) (f : Frame) : Option Word64 :=
  if s.impl.featMPAM = false then some 0#64
  else if hasRis (s.impl.idrOf f 0#4) = false then some (s.impl.idrOf f 0#4)
  else if s.risSel.get f ≤ risMax (s.impl.idrOf f 0#4) then some (s.impl.idrOf f (s.risSel.get f))
  else none

/-- The byte at offset `k` of the frame, where it belongs to the register and the register shows a value (R62, R64). -/
def readByte (s : State) (f : Frame) (k : Nat) : Option Byte :=
  if k < regBytes s.impl then (idrValue s f).map (fun v => byteOf v k) else none

/-- The access is a read or a write: R86 (0). -/
def isReadOrWrite : Kind → Bool
  | .read => true
  | .write _ => true
  | .other _ => false

/-- The checks of R86 in its order; `none` if the access passes them all (R101, R143). -/
def firstRefusal (s : State) (a : Access) : Option Refusal :=
  if isReadOrWrite a.kind = false then some .accessKindNotInSource
  else if s.powered = false then some .unpowered
  else if s.impl.frames.get a.frame = false then some .noSuchFrame
  else if mayReach s.impl a.requester a.frame = false then some .frameNotReachable
  else if regBytes s.impl ≤ a.offset ∨ regBytes s.impl < a.offset + a.size then some .offsetNotInScope
  else if selectPart a.offset a.size = none then some .accessSizeNotInSource
  else none

/-- An answer goes back to the requester (R100 "return", R171). -/
def recordAnswer (i : Instr) (r : Reply) (s : State) : State := { s with answers := ⟨i, r⟩ :: s.answers }

/-- `DevRead` (R100): after the checks, one evaluation of `IDRValue` (R67), of which `view` is the part returned. Nothing
else changes (R68). -/
def devRead (i : Instr) (view : Word64 → Reply) (s : State) : Host.Outcome State Fault Refusal :=
  match firstRefusal s (encode i) with
  | some r => .refused r
  | none =>
    match idrValue s i.frame with
    | none => .refused .risOutOfRange
    | some v => .next (recordAnswer i (view v) s)

/-- What a requester is told when it writes (R105): `WriteResponse`, but always `ignored` without `FEAT_MPAM` (R107,
D10). -/
def writeAnswer (p : Impl) : WriteResponse := if p.featMPAM = true then p.writeResponse else .ignored

/-- `DevWrite` (R100, R105): after the checks the data is discarded and the response returned; nothing else changes. -/
def devWrite (i : Instr) (s : State) : Host.Outcome State Fault Refusal :=
  match firstRefusal s (encode i) with
  | some r => .refused r
  | none => .next (recordAnswer i (.response (writeAnswer s.impl)) s)

/-- The next event is taken from the device order (R70). -/
def withQueue (rest : List Event) (s : State) : State := { s with queue := rest }

/-- The environment step `SetRIS(f, n)` (R52): it sets `ris_sel[f]` and changes nothing else. DESIGN CHOICE (log entry
32): R51 and R52 speak only of `f` in `Frames`; the step on an absent frame sets the selector kept for that frame, which
no access reads. -/
def setRis (f : Frame) (n : RisNum) (s : State) : State := { s with risSel := s.risSel.set f n }

/-- A change of the power domain (R152, R171): `Powered` takes the new level, and both selectors become free values (log
entry 8), that of an absent frame too (log entry 32). Switching to the level that holds is no change (log entry 9). -/
def setPower (on : Bool) (s : State) : State :=
  if on = s.powered then s
  else { s with
    powered := on
    risSel := ⟨Config.freeRisSel s.draws, Config.freeRisSel (s.draws + 1)⟩
    draws := s.draws + 2 }

/-- The access by offset that an access by address is (R100): `MPAMF_BASE_f <= addr < MPAMF_BASE_f + FRAME_SIZE` in the
memory map of frame `f`. -/
def route (p : Impl) (m : MemAccess) : Option Access :=
  if p.base.get m.map ≤ m.address ∧ m.address < p.base.get m.map + p.frameSize then
    some ⟨m.requester, m.kind, m.map, m.address - p.base.get m.map, m.size⟩
  else none

/-- No event is left: the register never changes by itself (R165), and the MSC waits for nothing (R171; log entry 6). -/
def idle (s : State) : State := s

end Sys2Proof.Machine
end

