-- ==== Sys2Proof/Machine/Reads.lean ====
section
/-!
DEFINITION. The six reads (40_access_operations.md R102 to R104).
-/
namespace Sys2Proof.Machine

/-- `RD32L.S` (R102). -/
def execRd32lS (q : Requester) (s : State) : Host.Outcome State Fault Refusal :=
  devRead (.rd32lS q) (fun v => .word32 (lowHalf v)) s

/-- `RD32L.NS` (R102). -/
def execRd32lNS (q : Requester) (s : State) : Host.Outcome State Fault Refusal :=
  devRead (.rd32lNS q) (fun v => .word32 (lowHalf v)) s

/-- `RD32H.S` (R103). -/
def execRd32hS (q : Requester) (s : State) : Host.Outcome State Fault Refusal :=
  devRead (.rd32hS q) (fun v => .word32 (highHalf v)) s

/-- `RD32H.NS` (R103). -/
def execRd32hNS (q : Requester) (s : State) : Host.Outcome State Fault Refusal :=
  devRead (.rd32hNS q) (fun v => .word32 (highHalf v)) s

/-- `RD64.S` (R104). -/
def execRd64S (q : Requester) (s : State) : Host.Outcome State Fault Refusal :=
  devRead (.rd64S q) (fun v => .word64 v) s

/-- `RD64.NS` (R104). -/
def execRd64NS (q : Requester) (s : State) : Host.Outcome State Fault Refusal :=
  devRead (.rd64NS q) (fun v => .word64 v) s

end Sys2Proof.Machine
end

