-- ==== Sys2Proof/Machine/Writes.lean ====
section
/-!
DEFINITION. The six writes (40_access_operations.md R105): the register is read-only (R54), so the data is discarded.
-/
namespace Sys2Proof.Machine

/-- `WR32L.S, d` (R105). -/
def execWr32lS (q : Requester) (d : Word32) (s : State) : Host.Outcome State Fault Refusal :=
  devWrite (.wr32lS q d) s

/-- `WR32L.NS, d` (R105). -/
def execWr32lNS (q : Requester) (d : Word32) (s : State) : Host.Outcome State Fault Refusal :=
  devWrite (.wr32lNS q d) s

/-- `WR32H.S, d` (R105). -/
def execWr32hS (q : Requester) (d : Word32) (s : State) : Host.Outcome State Fault Refusal :=
  devWrite (.wr32hS q d) s

/-- `WR32H.NS, d` (R105). -/
def execWr32hNS (q : Requester) (d : Word32) (s : State) : Host.Outcome State Fault Refusal :=
  devWrite (.wr32hNS q d) s

/-- `WR64.S, d` (R105). -/
def execWr64S (q : Requester) (d : Word64) (s : State) : Host.Outcome State Fault Refusal :=
  devWrite (.wr64S q d) s

/-- `WR64.NS, d` (R105). -/
def execWr64NS (q : Requester) (d : Word64) (s : State) : Host.Outcome State Fault Refusal :=
  devWrite (.wr64NS q d) s

end Sys2Proof.Machine
end

