-- ==== Sys2Proof/Machine/Dispatch.lean ====
section
/-!
DEFINITION. One arm per access operation.
-/
namespace Sys2Proof.Machine

def exec (i : Instr) (s : State) : Host.Outcome State Fault Refusal :=
  match i with
  | .rd32lS q => Sys2Proof.Machine.execRd32lS q s
  | .rd32lNS q => Sys2Proof.Machine.execRd32lNS q s
  | .rd32hS q => Sys2Proof.Machine.execRd32hS q s
  | .rd32hNS q => Sys2Proof.Machine.execRd32hNS q s
  | .rd64S q => Sys2Proof.Machine.execRd64S q s
  | .rd64NS q => Sys2Proof.Machine.execRd64NS q s
  | .wr32lS q d => Sys2Proof.Machine.execWr32lS q d s
  | .wr32lNS q d => Sys2Proof.Machine.execWr32lNS q d s
  | .wr32hS q d => Sys2Proof.Machine.execWr32hS q d s
  | .wr32hNS q d => Sys2Proof.Machine.execWr32hNS q d s
  | .wr64S q d => Sys2Proof.Machine.execWr64S q d s
  | .wr64NS q d => Sys2Proof.Machine.execWr64NS q d s

end Sys2Proof.Machine
end

