-- ==== Sys2Proof/Machine/Deliver.lean ====
section
/-!
DEFINITION. What the MSC does with one event of the device order (20_memory.md R70, 40_access_operations.md R100, R101).
-/
namespace Sys2Proof.Machine

/-- The refusal an undecodable access has by its own form; it is the answer only where no check of R86 stops the access
first, which never happens (Laws/Decode.lean, `firstRefusal_of_decode_error`). -/
def ofDecodeError : DecodeError → Refusal
  | .accessKindNotInSource => .accessKindNotInSource
  | .offsetNotInScope => .offsetNotInScope
  | .accessSizeNotInSource => .accessSizeNotInSource

/-- An access reaches the MSC: the selected operation runs, or the access is refused for the first reason of R86. -/
def deliverAccess (a : Access) (s : State) : Host.Outcome State Fault Refusal :=
  match Sys2Proof.decode a with
  | .ok i => exec i s
  | .error e => .refused ((firstRefusal s a).getD (ofDecodeError e))

/-- An access by address: the part of the map that is a feature page answers as R100 says; an address elsewhere is
refused (log entry 11). -/
def deliverMemory (m : MemAccess) (s : State) : Host.Outcome State Fault Refusal :=
  match route s.impl m with
  | some a => deliverAccess a s
  | none => .refused .addressOutsideFrame

/-- One event of the device order (R70, R171). -/
def deliver (e : Event) (s : State) : Host.Outcome State Fault Refusal :=
  match e with
  | .access a => deliverAccess a s
  | .memory m => deliverMemory m s
  | .setRis f n => .next (setRis f n s)
  | .power on => .next (setPower on s)

end Sys2Proof.Machine
end

