-- ==== Sys2Proof/Machine/Pseudo.lean ====
section
/-!
DEFINITION. The pseudo-operation `RDPAIR.f` (30_encoding.md R91, 40_access_operations.md R106): two accesses, not one.
-/
namespace Sys2Proof.Machine

/-- `RDPAIR.f` as a requester issues it: `RD32L.f`, then `RD32H.f` (R91). -/
def rdpair (f : Frame) (q : Requester) : List Event :=
  [.access (encode (.rd32l f q)), .access (encode (.rd32h f q))]

/-- The same with the halves the other way round, which is equally valid (R106). -/
def rdpairHighFirst (f : Frame) (q : Requester) : List Event :=
  [.access (encode (.rd32h f q)), .access (encode (.rd32l f q))]

/-- `hi : lo`, what the requester makes of the two halves (R11, R91). -/
def pairValue (hi lo : Word32) : Word64 := hi ++ lo

end Sys2Proof.Machine
end

