-- ==== Sys2Proof/Machine/Step.lean ====
section
/-!
DEFINITION. One step: the next event of the device order reaches the MSC (20_memory.md R70).
-/
namespace Sys2Proof.Machine

/-- One step. An empty queue leaves the machine as it is (log entry 6). -/
def step (s : State) : Host.Outcome State Fault Refusal :=
  match s.queue with
  | [] => .next (idle s)
  | e :: rest => deliver e (withQueue rest s)

/-- The state with the access whose packed form has these `nbits` bits, and zeros above them, as the next event (log
entries 5 and 7). -/
def State.withFetchWord (s : State) (nbits w : Nat) : State :=
  { s with queue := .access (unpack (w % 2 ^ nbits)) :: s.queue }

end Sys2Proof.Machine
end

