-- ==== Sys2Proof/Laws/State.lean ====
section
/-!
SUPPORT. One lemma per field per update of the state.
-/
namespace Sys2Proof

@[simp] theorem PerFrame.get_set_same {α : Type} (x : PerFrame α) (f : Frame) (a : α) : (x.set f a).get f = a := by
  cases f <;> rfl

theorem PerFrame.get_set_of_ne {α : Type} (x : PerFrame α) {f g : Frame} (a : α) (h : g ≠ f) :
    (x.set f a).get g = x.get g := by
  cases f <;> cases g <;> first | rfl | exact absurd rfl h

namespace Machine

@[simp] theorem recordAnswer_impl (i : Instr) (r : Reply) (s : State) : (recordAnswer i r s).impl = s.impl := rfl
@[simp] theorem recordAnswer_powered (i : Instr) (r : Reply) (s : State) :
    (recordAnswer i r s).powered = s.powered := rfl
@[simp] theorem recordAnswer_risSel (i : Instr) (r : Reply) (s : State) : (recordAnswer i r s).risSel = s.risSel := rfl
@[simp] theorem recordAnswer_draws (i : Instr) (r : Reply) (s : State) : (recordAnswer i r s).draws = s.draws := rfl
@[simp] theorem recordAnswer_queue (i : Instr) (r : Reply) (s : State) : (recordAnswer i r s).queue = s.queue := rfl
@[simp] theorem recordAnswer_answers (i : Instr) (r : Reply) (s : State) :
    (recordAnswer i r s).answers = ⟨i, r⟩ :: s.answers := rfl

@[simp] theorem withQueue_impl (l : List Event) (s : State) : (withQueue l s).impl = s.impl := rfl
@[simp] theorem withQueue_powered (l : List Event) (s : State) : (withQueue l s).powered = s.powered := rfl
@[simp] theorem withQueue_risSel (l : List Event) (s : State) : (withQueue l s).risSel = s.risSel := rfl
@[simp] theorem withQueue_draws (l : List Event) (s : State) : (withQueue l s).draws = s.draws := rfl
@[simp] theorem withQueue_queue (l : List Event) (s : State) : (withQueue l s).queue = l := rfl
@[simp] theorem withQueue_answers (l : List Event) (s : State) : (withQueue l s).answers = s.answers := rfl

@[simp] theorem setRis_impl (f : Frame) (n : RisNum) (s : State) : (setRis f n s).impl = s.impl := rfl
@[simp] theorem setRis_powered (f : Frame) (n : RisNum) (s : State) : (setRis f n s).powered = s.powered := rfl
@[simp] theorem setRis_risSel (f : Frame) (n : RisNum) (s : State) :
    (setRis f n s).risSel = s.risSel.set f n := rfl
@[simp] theorem setRis_draws (f : Frame) (n : RisNum) (s : State) : (setRis f n s).draws = s.draws := rfl
@[simp] theorem setRis_queue (f : Frame) (n : RisNum) (s : State) : (setRis f n s).queue = s.queue := rfl
@[simp] theorem setRis_answers (f : Frame) (n : RisNum) (s : State) : (setRis f n s).answers = s.answers := rfl

@[simp] theorem setPower_impl (b : Bool) (s : State) : (setPower b s).impl = s.impl := by
  unfold setPower; split <;> rfl
@[simp] theorem setPower_powered (b : Bool) (s : State) : (setPower b s).powered = b := by
  unfold setPower; split
  · next h => exact h.symm
  · rfl
@[simp] theorem setPower_queue (b : Bool) (s : State) : (setPower b s).queue = s.queue := by
  unfold setPower; split <;> rfl
@[simp] theorem setPower_answers (b : Bool) (s : State) : (setPower b s).answers = s.answers := by
  unfold setPower; split <;> rfl

/-- Switching to the level that holds is no change. -/
theorem setPower_of_eq {b : Bool} {s : State} (h : b = s.powered) : setPower b s = s := by simp [setPower, h]

@[simp] theorem idle_eq (s : State) : idle s = s := rfl

@[simp] theorem resetOf_impl (p : Impl) (b : Bool) (x : PerFrame RisNum) : (State.resetOf p b x).impl = p := rfl
@[simp] theorem resetOf_powered (p : Impl) (b : Bool) (x : PerFrame RisNum) : (State.resetOf p b x).powered = b := rfl
@[simp] theorem resetOf_risSel (p : Impl) (b : Bool) (x : PerFrame RisNum) : (State.resetOf p b x).risSel = x := rfl
@[simp] theorem resetOf_draws (p : Impl) (b : Bool) (x : PerFrame RisNum) : (State.resetOf p b x).draws = 0 := rfl
@[simp] theorem resetOf_queue (p : Impl) (b : Bool) (x : PerFrame RisNum) : (State.resetOf p b x).queue = [] := rfl
@[simp] theorem resetOf_answers (p : Impl) (b : Bool) (x : PerFrame RisNum) : (State.resetOf p b x).answers = [] := rfl

end Machine
end Sys2Proof
end

