-- ==== Sys2Proof/Safety.lean ====
section
/-!
DEFINITION. What counts as a safe run, in the terms the statements use: the launch premises of 70_reset_and_hazards.md
R170 over a run (R169: a sequence of steps the claim chooses, here a list of events), and the invariant that every answer ever given is one the register may give.
-/
namespace Sys2Proof.Machine

/-- The checks (1) to (3) of R86 for one access in one state: what (P-power) and (P-frames) of R170 give it. -/
def Accepts (s : State) (q : Requester) (f : Frame) : Prop :=
  s.powered = true ∧ s.impl.frames.get f = true ∧ (q, f) ∉ s.impl.barred

/-- The event at the head of the device order brings the access `a` to the MSC: as itself, or by an address inside the
feature page of its map (R100). -/
def Brings (p : Impl) (e : Event) (a : Access) : Prop :=
  e = .access a ∨ ∃ m, e = .memory m
    ∧ p.base.get m.map ≤ m.address ∧ m.address < p.base.get m.map + p.frameSize
    ∧ a = ⟨m.requester, m.kind, m.map, m.address - p.base.get m.map, m.size⟩

/-- (P-power) of R170: `Powered` holds at the start and no event of the device order switches it off. -/
def PoweredThroughout (s : State) : Prop := s.powered = true ∧ Event.power false ∉ s.queue

/-- (P-frames) of R170: the frames the run touches exist, and its requesters can reach them. -/
def TouchesFrames (p : Impl) (run : List Event) : Prop :=
  (∀ e ∈ run, ∀ a, Brings p e a → p.frames.get a.frame = true ∧ (a.requester, a.frame) ∉ p.barred)
  ∧ ∀ f n, Event.setRis f n ∈ run → p.frames.get f = true

/-- The first arm of (P-sel) of R170: a frame with `HAS_RIS == 1` has an implemented instance selected at the start. -/
def Selected (s : State) (f : Frame) : Prop :=
  hasRis (s.impl.idrOf f 0#4) = true → s.risSel.get f ≤ risMax (s.impl.idrOf f 0#4)

/-- The second arm of (P-sel) of R170: the run selects an instance of `f` before its first read of `f`, if it has one. -/
def SelectsBeforeRead (p : Impl) (f : Frame) : List Event → Prop
  | [] => True
  | e :: rest =>
    (∃ n, e = .setRis f n ∧ n ≤ risMax (p.idrOf f 0#4))
      ∨ ((∀ a, Brings p e a → a.kind = .read → a.frame ≠ f) ∧ SelectsBeforeRead p f rest)

/-- (P-quiet) of R170, R166: the device order is the run in its order, interleaved with other events none of which is a
`SetRIS(f, _)`. -/
def QuietBeside (f : Frame) : (run order : List Event) → Prop
  | run, [] => run = []
  | run, e :: rest =>
    (∃ run', run = e :: run' ∧ QuietBeside f run' rest) ∨ ((∀ n, e ≠ .setRis f n) ∧ QuietBeside f run rest)

/-- The premises (P-power), (P-wf), (P-frames) and (P-sel) of R170 for a run in a device order. (P-quiet), which R170 asks
only where a claim needs it, is `QuietBeside` (log entry 33). Nothing is in flight at the start: State has no asynchronous operation. -/
def Launch (s : State) (run : List Event) : Prop :=
  PoweredThroughout s ∧ s.impl.WF ∧ TouchesFrames s.impl run
    ∧ ∀ f, Selected s f ∨ SelectsBeforeRead s.impl f run

/-- Every `SetRIS` of the run names an implemented instance (R48, R53), so that no later read of the run is refused (log
entry 33). -/
def NamesInstances (p : Impl) (run : List Event) : Prop :=
  ∀ f n, Event.setRis f n ∈ run → hasRis (p.idrOf f 0#4) = true → n ≤ risMax (p.idrOf f 0#4)

/-- The event can change nothing that `f` shows, whatever the power is: (P-quiet) of R170 for a run with no `SetRIS(f, _)`
of its own, and no power event. -/
def Quiet (f : Frame) : Event → Prop
  | .access _ => True
  | .memory _ => True
  | .setRis g _ => g ≠ f
  | .power _ => False

/-- The values `IDRValue(f)` may have in this implementation (R22, R48, R53). -/
def Shows (p : Impl) (f : Frame) (v : Word64) : Prop :=
  if p.featMPAM = true then ∃ r : RisNum, r ≤ risMax (p.idrOf f 0#4) ∧ v = p.idrOf f r
  else v = 0#64

/-- The answer is one this implementation may give to that operation (R85, R86, R102 to R107): the frame exists, the
requester can reach it, the operation is admitted in the layout, a read returns its part of a value the register shows, a
write its response. -/
def Truthful (p : Impl) (a : Answer) : Prop :=
  p.frames.get a.op.frame = true ∧ (a.op.requester, a.op.frame) ∉ p.barred ∧ a.op.WF p.haveMPAMExt ∧
    match a.op with
    | .rd32lS _ => ∃ v, Shows p .secure v ∧ a.reply = .word32 (lowHalf v)
    | .rd32lNS _ => ∃ v, Shows p .nonSecure v ∧ a.reply = .word32 (lowHalf v)
    | .rd32hS _ => ∃ v, Shows p .secure v ∧ a.reply = .word32 (highHalf v)
    | .rd32hNS _ => ∃ v, Shows p .nonSecure v ∧ a.reply = .word32 (highHalf v)
    | .rd64S _ => ∃ v, Shows p .secure v ∧ a.reply = .word64 v
    | .rd64NS _ => ∃ v, Shows p .nonSecure v ∧ a.reply = .word64 v
    | .wr32lS _ _ => a.reply = .response (writeAnswer p)
    | .wr32lNS _ _ => a.reply = .response (writeAnswer p)
    | .wr32hS _ _ => a.reply = .response (writeAnswer p)
    | .wr32hNS _ _ => a.reply = .response (writeAnswer p)
    | .wr64S _ _ => a.reply = .response (writeAnswer p)
    | .wr64NS _ _ => a.reply = .response (writeAnswer p)

/-- The invariant: the implementation is well formed and every answer given so far is one it may give. -/
def Inv (s : State) : Prop := s.impl.WF ∧ ∀ a ∈ s.answers, Truthful s.impl a

/-- When an access completes (R85, R86, R53): it is a write, or a read of a register that shows a value; it is accepted;
and its offset and size are a row of the selector table that the layout admits. -/
def Completes (s : State) (a : Access) : Prop :=
  ((a.kind = .read ∧ ∃ v, idrValue s a.frame = some v) ∨ ∃ d, a.kind = .write d)
  ∧ Accepts s a.requester a.frame
  ∧ ((a.offset = 0x0000 ∧ a.size = 4)
    ∨ (regWidth s.impl = 64 ∧ ((a.offset = 0x0004 ∧ a.size = 4) ∨ (a.offset = 0x0000 ∧ a.size = 8))))

/-- The bits of a value that do not follow the resource instance (R48). -/
def outsideRisDep (v : Word64) : Word64 := v &&& ~~~risDep

end Sys2Proof.Machine
end

