-- ==== Sys2Proof/Laws/Ops.lean ====
section
/-!
SUPPORT. For each shared operation, what it can do, said once.
-/
namespace Sys2Proof

@[simp] theorem encode_requester (i : Instr) : (encode i).requester = i.requester := by cases i <;> rfl
@[simp] theorem encode_frame (i : Instr) : (encode i).frame = i.frame := by cases i <;> rfl

namespace Machine

@[simp] theorem isReadOrWrite_encode (i : Instr) : isReadOrWrite (encode i).kind = true := by cases i <;> rfl

theorem mayReach_eq_true_iff (p : Impl) (q : Requester) (f : Frame) :
    mayReach p q f = true ↔ (q, f) ∉ p.barred := by
  simp [mayReach]

theorem selectPart_eq_none_iff (off n : Nat) :
    selectPart off n = none ↔ ¬(off = 0 ∧ n = 4) ∧ ¬(off = 4 ∧ n = 4) ∧ ¬(off = 0 ∧ n = 8) := by
  unfold selectPart
  split_ifs <;> simp_all

/-- `RegWidth/8` is 8 with `HaveMPAMExt` and 4 without. -/
theorem regBytes_eq (p : Impl) : regBytes p = if p.haveMPAMExt = true then 8 else 4 := by
  unfold regBytes regWidth
  split_ifs <;> rfl

/-- The register is 4 or 8 bytes long. -/
theorem regBytes_cases (p : Impl) :
    (p.haveMPAMExt = true ∧ regBytes p = 8) ∨ (p.haveMPAMExt = false ∧ regBytes p = 4) := by
  rw [regBytes_eq]
  cases p.haveMPAMExt <;> simp

/-- An access passes every check of R86 exactly when it is an admitted one. -/
theorem firstRefusal_eq_none_iff (s : State) (a : Access) :
    firstRefusal s a = none ↔
      isReadOrWrite a.kind = true ∧ Accepts s a.requester a.frame ∧
        (a.offset < regBytes s.impl ∧ a.offset + a.size ≤ regBytes s.impl) ∧ selectPart a.offset a.size ≠ none := by
  unfold firstRefusal Accepts mayReach
  split_ifs with h1 h2 h3 h4 h5 h6
  case pos => simp_all
  case pos => simp_all
  case pos => simp_all
  case pos => simp_all
  case pos =>
    have : ¬(a.offset < regBytes s.impl ∧ a.offset + a.size ≤ regBytes s.impl) := by omega
    simp [this]
  all_goals simp_all

/-- For an operation the checks come down to the launch premises and the layout. -/
theorem firstRefusal_encode_eq_none_iff (s : State) (i : Instr) :
    firstRefusal s (encode i) = none ↔ Accepts s i.requester i.frame ∧ i.WF s.impl.haveMPAMExt := by
  rw [firstRefusal_eq_none_iff]
  rcases regBytes_cases s.impl with ⟨h, hb⟩ | ⟨h, hb⟩ <;> cases i <;>
    simp [encode, hb, h, isReadOrWrite, selectPart, Instr.requester, Instr.frame, Instr.needs64]

/-- In the 32-bit layout an operation that needs 64 bits reaches beyond the register. -/
theorem firstRefusal_encode_of_narrow {s : State} {i : Instr} (h : Accepts s i.requester i.frame)
    (hn : i.needs64 = true) (hw : s.impl.haveMPAMExt = false) :
    firstRefusal s (encode i) = some .offsetNotInScope := by
  have hb : regBytes s.impl = 4 := by rw [regBytes_eq]; simp [hw]
  obtain ⟨h1, h2, h3⟩ := h
  unfold firstRefusal
  rw [encode_frame, encode_requester, isReadOrWrite_encode]
  simp only [h1, h2, (mayReach_eq_true_iff _ _ _).mpr h3, hb]
  cases i <;> simp [encode, Instr.needs64] at hn ⊢

/-- What a read can do when it completes: record its part of the one value the register shows. -/
theorem devRead_eq_next_iff (i : Instr) (view : Word64 → Reply) (s t : State) :
    devRead i view s = .next t ↔
      firstRefusal s (encode i) = none ∧ ∃ v, idrValue s i.frame = some v ∧ t = recordAnswer i (view v) s := by
  unfold devRead
  cases firstRefusal s (encode i) with
  | some r => simp
  | none =>
    cases idrValue s i.frame with
    | none => simp
    | some v => simp [eq_comm]

/-- When a read is refused: by a check, or by the selector. -/
theorem devRead_eq_refused_iff (i : Instr) (view : Word64 → Reply) (s : State) (r : Refusal) :
    devRead i view s = .refused r ↔
      firstRefusal s (encode i) = some r ∨
        (firstRefusal s (encode i) = none ∧ idrValue s i.frame = none ∧ r = .risOutOfRange) := by
  unfold devRead
  cases firstRefusal s (encode i) with
  | some r => simp
  | none =>
    cases idrValue s i.frame with
    | none => simp [eq_comm]
    | some v => simp

/-- What a write can do when it completes: record its response. -/
theorem devWrite_eq_next_iff (i : Instr) (s t : State) :
    devWrite i s = .next t ↔
      firstRefusal s (encode i) = none ∧ t = recordAnswer i (.response (writeAnswer s.impl)) s := by
  unfold devWrite
  cases firstRefusal s (encode i) <;> simp [eq_comm]

/-- When a write is refused: by a check. -/
theorem devWrite_eq_refused_iff (i : Instr) (s : State) (r : Refusal) :
    devWrite i s = .refused r ↔ firstRefusal s (encode i) = some r := by
  unfold devWrite
  cases firstRefusal s (encode i) <;> simp

/-- The checks look at the implementation and at the power domain only. -/
theorem firstRefusal_congr {s t : State} (hi : t.impl = s.impl) (hp : t.powered = s.powered) (a : Access) :
    firstRefusal t a = firstRefusal s a := by
  unfold firstRefusal
  rw [hi, hp]

/-- `IDRValue(f)` looks at the implementation and at the selector of `f` only. -/
theorem idrValue_congr {s t : State} (f : Frame) (hi : t.impl = s.impl) (hr : t.risSel.get f = s.risSel.get f) :
    idrValue t f = idrValue s f := by
  unfold idrValue
  rw [hi, hr]

/-- What a refusal of the checks says of the access: which check of R86 it failed. -/
theorem firstRefusal_eq_some_cases {s : State} {a : Access} {r : Refusal} (h : firstRefusal s a = some r) :
    (r = .accessKindNotInSource ∧ isReadOrWrite a.kind = false)
    ∨ (r = .unpowered ∧ s.powered = false)
    ∨ (r = .noSuchFrame ∧ s.impl.frames.get a.frame = false)
    ∨ (r = .frameNotReachable ∧ mayReach s.impl a.requester a.frame = false)
    ∨ (r = .offsetNotInScope ∧ (regBytes s.impl ≤ a.offset ∨ regBytes s.impl < a.offset + a.size))
    ∨ (r = .accessSizeNotInSource ∧ selectPart a.offset a.size = none) := by
  unfold firstRefusal at h
  split_ifs at h <;> simp_all

/-- Which access an access by address is: the one at its offset in the feature page of its map. -/
theorem route_eq_some_iff (p : Impl) (m : MemAccess) (a : Access) :
    route p m = some a ↔
      (p.base.get m.map ≤ m.address ∧ m.address < p.base.get m.map + p.frameSize) ∧
        a = ⟨m.requester, m.kind, m.map, m.address - p.base.get m.map, m.size⟩ := by
  unfold route
  split_ifs with h <;> simp [h, eq_comm]

/-- An access by address is no access of the register where its address lies outside the feature page of its map. -/
theorem route_eq_none_iff (p : Impl) (m : MemAccess) :
    route p m = none ↔ m.address < p.base.get m.map ∨ p.base.get m.map + p.frameSize ≤ m.address := by
  unfold route
  split_ifs with h <;> simp <;> omega

/-- Without resource instances the selector is not consulted. -/
theorem idrValue_of_hasRis_false {s : State} {f : Frame} (hm : s.impl.featMPAM = true)
    (h : hasRis (s.impl.idrOf f 0#4) = false) : idrValue s f = some (s.impl.idrOf f 0#4) := by
  simp [idrValue, hm, h]

/-- With resource instances the selected one is shown. -/
theorem idrValue_of_hasRis {s : State} {f : Frame} (hm : s.impl.featMPAM = true)
    (h : hasRis (s.impl.idrOf f 0#4) = true) (hs : s.risSel.get f ≤ risMax (s.impl.idrOf f 0#4)) :
    idrValue s f = some (s.impl.idrOf f (s.risSel.get f)) := by
  simp [idrValue, hm, h, hs]

/-- There is no value exactly when the selector names no instance. -/
theorem idrValue_eq_none_iff (s : State) (f : Frame) :
    idrValue s f = none ↔
      s.impl.featMPAM = true ∧ hasRis (s.impl.idrOf f 0#4) = true ∧ ¬s.risSel.get f ≤ risMax (s.impl.idrOf f 0#4) := by
  unfold idrValue
  split_ifs <;> simp_all

/-- Whatever the register shows is a value of this implementation. -/
theorem shows_of_idrValue {s : State} {f : Frame} {v : Word64} (h : idrValue s f = some v) : Shows s.impl f v := by
  unfold idrValue at h
  unfold Shows
  split_ifs at h with h1 h2 h3
  · simp_all
  · have hm : s.impl.featMPAM = true := by simpa using h1
    simp only [hm, if_true]
    exact ⟨0#4, BitVec.le_def.mpr (Nat.zero_le _), (Option.some.inj h).symm⟩
  · have hm : s.impl.featMPAM = true := by simpa using h1
    simp only [hm, if_true]
    exact ⟨_, h3, (Option.some.inj h).symm⟩

/-- `RIS_MAX(f)` in WF (R50) is the field of the value (R83). -/
@[simp] theorem risMax_idrOf (p : Impl) (f : Frame) : risMax (p.idrOf f 0#4) = p.risMaxOf f := rfl

/-- Every value of an implemented instance of an existing frame is well formed, and all agree outside `RISDEP` (R50). -/
theorem wfval_of_shows {p : Impl} {f : Frame} {v : Word64} (hw : p.WF) (hm : p.featMPAM = true)
    (hf : p.frames.get f = true) (hv : Shows p f v) :
    WFval p.haveMPAMExt v ∧ outsideRisDep v = outsideRisDep (p.idrOf f 0#4) := by
  unfold Shows at hv
  simp only [hm, if_true] at hv
  obtain ⟨r, hr, rfl⟩ := hv
  have h := hw.2.2.2.2 hm
  cases f
  · exact (Impl.wfFrame_eq_true_iff p .secure).mp h.1 hf r hr
  · exact (Impl.wfFrame_eq_true_iff p .nonSecure).mp h.2 hf r hr

end Machine
end Sys2Proof
end

