-- ==== Sys2Proof/Laws/Decode.lean ====
section
/-!
SUPPORT. What decoding can answer.
-/
namespace Sys2Proof

/-- An access that selects no row is no read or write, or covers none of the admitted parts. -/
theorem decode_error_cases {a : Access} {e : DecodeError} (h : decode a = .error e) :
    Machine.isReadOrWrite a.kind = false ∨ selectPart a.offset a.size = none := by
  unfold decode at h
  split at h <;> simp_all [Machine.isReadOrWrite]

/-- An access that selects a row is a read or a write of an admitted part. -/
theorem decode_ok_cases {a : Access} {i : Instr} (h : decode a = .ok i) :
    Machine.isReadOrWrite a.kind = true ∧ ∃ x, selectPart a.offset a.size = some x := by
  unfold decode at h
  split at h <;> simp_all [Machine.isReadOrWrite]

/-- The selected row keeps the requester and the frame. -/
theorem decode_ok_fields {a : Access} {i : Instr} (h : decode a = .ok i) :
    i.requester = a.requester ∧ i.frame = a.frame := by
  unfold decode at h
  split at h <;> simp only [reduceCtorEq, Except.ok.injEq] at h <;> subst h <;> simp_all [Instr.requester, Instr.frame]

/-- The checks say the same of an access and of the access its row encodes to. -/
theorem Machine.firstRefusal_of_decode_ok {a : Access} {i : Instr} (h : decode a = .ok i) (s : Machine.State) :
    Machine.firstRefusal s (encode i) = Machine.firstRefusal s a := by
  have hk := (decode_ok_cases h).1
  have hf := decode_ok_fields h
  have ho : (encode i).offset = a.offset ∧ (encode i).size = a.size := by
    unfold decode at h
    split at h <;> simp only [reduceCtorEq, Except.ok.injEq] at h <;> subst h <;>
      (next hs _ => unfold selectPart at hs; split_ifs at hs <;> simp_all [encode])
  unfold Machine.firstRefusal
  rw [Machine.isReadOrWrite_encode, encode_frame, encode_requester, hf.1, hf.2, ho.1, ho.2, hk]

/-- An access that selects no row is stopped by a check of R86. -/
theorem Machine.firstRefusal_of_decode_error {a : Access} {e : DecodeError} (h : decode a = .error e)
    (s : Machine.State) : ∃ r, Machine.firstRefusal s a = some r := by
  cases hr : Machine.firstRefusal s a with
  | some r => exact ⟨r, rfl⟩
  | none =>
    have hn := (Machine.firstRefusal_eq_none_iff s a).mp hr
    rcases decode_error_cases h with h1 | h1
    · rw [hn.1] at h1; cases h1
    · exact absurd h1 hn.2.2.2

end Sys2Proof
end

