-- ==== Sys2Proof/Laws/Operands.lean ====
section
/-!
SUPPORT. The layout: widths, slices of a value, and what it means that two values agree outside `RISDEP`.
-/
namespace Sys2Proof.Machine

theorem regWidth_eq_64_iff (p : Impl) : regWidth p = 64 ↔ p.haveMPAMExt = true := by
  unfold regWidth; split <;> simp_all

theorem regWidth_eq_32_iff (p : Impl) : regWidth p = 32 ↔ p.haveMPAMExt = false := by
  unfold regWidth; split <;> simp_all

/-- A well-formed implementation without `FEAT_MPAM` is not 64 bits wide (D2). -/
theorem haveMPAMExt_eq_false_of_wf {p : Impl} (hw : p.WF) (h : p.featMPAM = false) : p.haveMPAMExt = false := by
  cases he : p.haveMPAMExt with
  | false => rfl
  | true => rw [hw.1 he] at h; cases h

/-- Each bit of `hi : lo` comes from its own half. -/
theorem getLsbD_pairValue (a b : Word64) (k : Nat) (hk : k < 64) :
    (pairValue (highHalf b) (lowHalf a)).getLsbD k = if k < 32 then a.getLsbD k else b.getLsbD k := by
  simp only [pairValue, highHalf, lowHalf, BitVec.getLsbD_append, BitVec.getLsbD_extractLsb']
  by_cases h : k < 32
  · simp [h]
  · simp [h, show 32 + (k - 32) = k by omega, show k - 32 < 32 by omega]

/-- Masking a contiguous run of bits and shifting it down is taking the slice. -/
theorem mask_shift_eq_slice (v m : Word64) (lo n : Nat)
    (h : ∀ k, k < 64 → (m >>> lo).getLsbD k = decide (k < n)) :
    (v &&& m) >>> lo = (v.extractLsb' lo n).setWidth 64 := by
  ext k hk
  have := h k hk
  simp only [BitVec.getLsbD_ushiftRight] at this
  simp [this]
  by_cases hn : k < n <;> simp [hn]

/-- Values that agree outside `RISDEP` agree in each bit outside it. -/
theorem getLsbD_of_outsideRisDep {v w : Word64} (h : outsideRisDep v = outsideRisDep w) (k : Nat)
    (hk : risDep.getLsbD k = false) : v.getLsbD k = w.getLsbD k := by
  have := congrArg (fun x => x.getLsbD k) h
  simp only [outsideRisDep, BitVec.getLsbD_and, BitVec.getLsbD_not, hk] at this
  by_cases hk : k < 64
  · simpa [hk] using this
  · rw [BitVec.getLsbD_of_ge _ _ (by omega), BitVec.getLsbD_of_ge _ _ (by omega)]

/-- Values that agree outside `RISDEP` agree in each slice outside it. -/
theorem extractLsb'_of_outsideRisDep {v w : Word64} (h : outsideRisDep v = outsideRisDep w) (a n : Nat)
    (hk : ∀ k, k < n → risDep.getLsbD (a + k) = false) : v.extractLsb' a n = w.extractLsb' a n := by
  ext k hk'
  simp only [BitVec.getElem_extractLsb']
  exact getLsbD_of_outsideRisDep h _ (hk k hk')

/-- What a value shown by an existing frame of a well-formed implementation is: 0 without `FEAT_MPAM`, else well formed
and equal to `IDR[f][0]` outside `RISDEP`. -/
theorem idrValue_wf_cases {s : State} {f : Frame} {v : Word64} (hw : s.impl.WF) (hf : s.impl.frames.get f = true)
    (h : idrValue s f = some v) :
    (s.impl.featMPAM = false ∧ v = 0#64) ∨
      (s.impl.featMPAM = true ∧ WFval s.impl.haveMPAMExt v
        ∧ outsideRisDep v = outsideRisDep (s.impl.idrOf f 0#4)) := by
  cases hm : s.impl.featMPAM with
  | false =>
    simp only [idrValue, hm, if_true, Option.some.injEq] at h
    exact .inl ⟨rfl, h.symm⟩
  | true => exact .inr ⟨rfl, wfval_of_shows hw hm hf (shows_of_idrValue h)⟩

/-- With resource instances the value shown is the selected instance's. -/
theorem eq_selected_of_idrValue {s : State} {f : Frame} {v : Word64} (hm : s.impl.featMPAM = true)
    (hr : hasRis (s.impl.idrOf f 0#4) = true) (h : idrValue s f = some v) : v = s.impl.idrOf f (s.risSel.get f) := by
  unfold idrValue at h
  simp only [hm, hr, Bool.true_eq_false, if_false] at h
  split_ifs at h
  exact (Option.some.inj h).symm

end Sys2Proof.Machine
end

