-- ==== Sys2Proof/Laws/Step.lean ====
section
/-!
SUPPORT. What one step can do, by the event it takes.
-/
namespace Sys2Proof.Machine

theorem step_of_queue_nil {s : State} (h : s.queue = []) : step s = .next s := by
  simp [step, h]

theorem step_of_queue_cons {s : State} {e : Event} {rest : List Event} (h : s.queue = e :: rest) :
    step s = deliver e (withQueue rest s) := by
  simp [step, h]

/-- Every operation is a read or a write of the shared kind, the same in every state. -/
theorem exec_is_shared (i : Instr) :
    (∃ view, i.isRead = true ∧ ∀ s, exec i s = devRead i view s) ∨ (i.isRead = false ∧ ∀ s, exec i s = devWrite i s) := by
  cases i
  case rd32lS | rd32lNS | rd32hS | rd32hNS | rd64S | rd64NS => exact .inl ⟨_, rfl, fun _ => rfl⟩
  all_goals exact .inr ⟨rfl, fun _ => rfl⟩

/-- Every operation is a read or a write of the shared kind. -/
theorem exec_is_access (i : Instr) (s : State) :
    (∃ view, exec i s = devRead i view s ∧ i.isRead = true) ∨ (exec i s = devWrite i s ∧ i.isRead = false) :=
  (exec_is_shared i).imp (fun ⟨view, hr, h⟩ => ⟨view, h s, hr⟩) (fun ⟨hr, h⟩ => ⟨h s, hr⟩)

theorem exec_rd32l (f : Frame) (q : Requester) (s : State) :
    exec (.rd32l f q) s = devRead (.rd32l f q) (fun v => .word32 (lowHalf v)) s := by cases f <;> rfl
theorem exec_rd32h (f : Frame) (q : Requester) (s : State) :
    exec (.rd32h f q) s = devRead (.rd32h f q) (fun v => .word32 (highHalf v)) s := by cases f <;> rfl
theorem exec_rd64 (f : Frame) (q : Requester) (s : State) :
    exec (.rd64 f q) s = devRead (.rd64 f q) (fun v => .word64 v) s := by cases f <;> rfl

@[simp] theorem rd32l_frame (f : Frame) (q : Requester) : (Instr.rd32l f q).frame = f := by cases f <;> rfl
@[simp] theorem rd32h_frame (f : Frame) (q : Requester) : (Instr.rd32h f q).frame = f := by cases f <;> rfl
@[simp] theorem rd64_frame (f : Frame) (q : Requester) : (Instr.rd64 f q).frame = f := by cases f <;> rfl
@[simp] theorem rd32l_requester (f : Frame) (q : Requester) : (Instr.rd32l f q).requester = q := by cases f <;> rfl
@[simp] theorem rd32h_requester (f : Frame) (q : Requester) : (Instr.rd32h f q).requester = q := by cases f <;> rfl
@[simp] theorem rd64_requester (f : Frame) (q : Requester) : (Instr.rd64 f q).requester = q := by cases f <;> rfl
@[simp] theorem rd32l_needs64 (f : Frame) (q : Requester) : (Instr.rd32l f q).needs64 = false := by cases f <;> rfl
@[simp] theorem rd32h_needs64 (f : Frame) (q : Requester) : (Instr.rd32h f q).needs64 = true := by cases f <;> rfl
@[simp] theorem rd64_needs64 (f : Frame) (q : Requester) : (Instr.rd64 f q).needs64 = true := by cases f <;> rfl

/-- What an operation leaves behind when it completes: one more answer. -/
theorem exec_next_cases {i : Instr} {s t : State} (h : exec i s = .next t) :
    firstRefusal s (encode i) = none ∧ ∃ r, t = recordAnswer i r s := by
  rcases exec_is_access i s with ⟨view, he, -⟩ | ⟨he, -⟩ <;> rw [he] at h
  · obtain ⟨hn, v, -, rfl⟩ := (devRead_eq_next_iff i view s t).mp h
    exact ⟨hn, _, rfl⟩
  · obtain ⟨hn, rfl⟩ := (devWrite_eq_next_iff i s t).mp h
    exact ⟨hn, _, rfl⟩

/-- An operation answers the same in every state with the same implementation, power and selector of its frame. -/
theorem exec_next_congr {i : Instr} {r : Reply} {s t : State} (h : exec i s = .next (recordAnswer i r s))
    (hi : t.impl = s.impl) (hp : t.powered = s.powered) (hr : t.risSel.get i.frame = s.risSel.get i.frame) :
    exec i t = .next (recordAnswer i r t) := by
  have hf := firstRefusal_congr hi hp (encode i)
  rcases exec_is_shared i with ⟨view, -, he⟩ | ⟨-, he⟩ <;> rw [he] at h ⊢
  · obtain ⟨hn, v, hv, h⟩ := (devRead_eq_next_iff ..).mp h
    obtain rfl : r = view v := by simpa using congrArg State.answers h
    exact (devRead_eq_next_iff ..).mpr ⟨hf.trans hn, v, (idrValue_congr _ hi hr).trans hv, rfl⟩
  · obtain ⟨hn, h⟩ := (devWrite_eq_next_iff ..).mp h
    obtain rfl : r = .response (writeAnswer s.impl) := by simpa using congrArg State.answers h
    exact (devWrite_eq_next_iff ..).mpr ⟨hf.trans hn, by rw [hi]⟩

/-- An access that completes is one operation that completes. -/
theorem deliverAccess_next_cases {a : Access} {s t : State} (h : deliverAccess a s = .next t) :
    ∃ i, decode a = .ok i ∧ exec i s = .next t := by
  unfold deliverAccess at h
  split at h
  · next i hi => exact ⟨i, hi, h⟩
  · cases h

/-- The selected row is a read exactly when the access is one. -/
theorem isRead_of_decode_ok {a : Access} {i : Instr} (h : decode a = .ok i) : i.isRead = true ↔ a.kind = .read := by
  unfold decode at h
  split at h <;> simp only [reduceCtorEq, Except.ok.injEq] at h <;> subst h <;> simp_all [Instr.isRead]

/-- When an access is refused: by a check, or, if it is a read, by the selector. -/
theorem deliverAccess_eq_refused_iff (a : Access) (s : State) (r : Refusal) :
    deliverAccess a s = .refused r ↔
      firstRefusal s a = some r ∨
        (firstRefusal s a = none ∧ a.kind = .read ∧ idrValue s a.frame = none ∧ r = .risOutOfRange) := by
  unfold deliverAccess
  split
  · next i hi =>
    have hr := isRead_of_decode_ok hi
    rw [← firstRefusal_of_decode_ok hi s, ← (decode_ok_fields hi).2, ← hr]
    rcases exec_is_access i s with ⟨view, he, h⟩ | ⟨he, h⟩ <;> rw [he, h]
    · simp [devRead_eq_refused_iff]
    · simp [devWrite_eq_refused_iff]
  · next e he =>
    obtain ⟨r', hr⟩ := firstRefusal_of_decode_error he s
    simp [hr]

/-- An access either completes or is refused. -/
theorem deliverAccess_next_iff_not_refused (a : Access) (s : State) :
    (∃ t, deliverAccess a s = .next t) ↔ ∀ r, deliverAccess a s ≠ .refused r := by
  cases deliverAccess a s with
  | next t => simp
  | fault f => cases f
  | refused r => simp

/-- What a step can do when it completes: nothing, answer one operation, set one selector, or switch the power. -/
theorem step_next_cases {s t : State} (h : step s = .next t) :
    (s.queue = [] ∧ t = s) ∨
    ∃ e rest, s.queue = e :: rest ∧
      ((∃ i, exec i (withQueue rest s) = .next t ∧ ((∃ a, e = .access a) ∨ ∃ m, e = .memory m)) ∨
        (∃ f n, e = .setRis f n ∧ t = setRis f n (withQueue rest s)) ∨
        ∃ b, e = .power b ∧ t = setPower b (withQueue rest s)) := by
  cases hq : s.queue with
  | nil =>
    rw [step_of_queue_nil hq] at h
    exact .inl ⟨rfl, (Host.Outcome.next.inj h).symm⟩
  | cons e rest =>
    rw [step_of_queue_cons hq] at h
    refine .inr ⟨e, rest, rfl, ?_⟩
    cases e with
    | access a =>
      obtain ⟨i, -, hi⟩ := deliverAccess_next_cases h
      exact .inl ⟨i, hi, .inl ⟨a, rfl⟩⟩
    | memory m =>
      simp only [deliver, deliverMemory] at h
      split at h
      · next a _ =>
        obtain ⟨i, -, hi⟩ := deliverAccess_next_cases h
        exact .inl ⟨i, hi, .inr ⟨m, rfl⟩⟩
      · cases h
    | setRis f n => exact .inr (.inl ⟨f, n, rfl, (Host.Outcome.next.inj h).symm⟩)
    | power b => exact .inr (.inr ⟨b, rfl, (Host.Outcome.next.inj h).symm⟩)

/-- A run goes on from the state a step answers. -/
theorem run_succ_of_step_next {s m : State} (h : step s = .next m) (k : Nat) :
    Host.Core.run Sys2Proof.core (k + 1) s = Host.Core.run Sys2Proof.core k m := by
  simp only [Host.Core.run]
  rw [show Sys2Proof.core.step s = .next m from h]

/-- A run ends where a step is refused. -/
theorem run_succ_of_step_refused {s : State} {r : Refusal} (h : step s = .refused r) (k : Nat) :
    Host.Core.run Sys2Proof.core (k + 1) s = .refused r := by
  simp only [Host.Core.run]
  rw [show Sys2Proof.core.step s = .refused r from h]

end Sys2Proof.Machine
end

