-- ==== Sys2Proof/Certificates/Slice0/Obligations.lean ====
section
/-!
DEFINITION. The statements for the provers. `Accepts s q f` is the premise that the power is on, the frame exists and
the requester can reach it (checks (1) to (3) of R86, premises P-power and P-frames of R170). A clause named "the spec's
decision" follows a choice the spec marks as its own in 92_eei_decisions.md.
-/
open Sys2Proof Sys2Proof.Machine

/-- R102. `RD32L.S` and `RD32L.NS` complete with bits [31:0] of `IDRValue(f)` and change nothing else; they are refused
where there is no value (the spec's decision D14, log entry 18); without `FEAT_MPAM` they return 0; bit 28 of a 32-bit
register is 0; with resource instances bits [27:24] are those of the selected one and the other 28 bits do not depend on
the selector; a second read returns the same in every later state with the same selector of `f` (no `SetRIS(f, _)`
between). -/
def Obligations.Rd32lReturnsLowHalf : Prop :=
  ∀ (f : Frame) (q : Requester) (s : State), Accepts s q f →
    (∀ v, idrValue s f = some v →
      exec (.rd32l f q) s = .next { s with answers := ⟨.rd32l f q, .word32 (v.extractLsb' 0 32)⟩ :: s.answers })
    ∧ (idrValue s f = none → exec (.rd32l f q) s = .refused .risOutOfRange)
    ∧ (s.impl.featMPAM = false →
      exec (.rd32l f q) s = .next { s with answers := ⟨.rd32l f q, .word32 0#32⟩ :: s.answers })
    ∧ (s.impl.WF → ∀ v, idrValue s f = some v →
      (regWidth s.impl = 32 → (v.extractLsb' 0 32).getLsbD 28 = false)
      ∧ (regWidth s.impl = 64 → hasRis (s.impl.idrOf f 0#4) = true →
          (v.extractLsb' 0 32).extractLsb' 24 4 = (s.impl.idrOf f (s.risSel.get f)).extractLsb' 24 4
          ∧ ∀ n w, idrValue (setRis f n s) f = some w →
              (v.extractLsb' 0 32).extractLsb' 0 24 = (w.extractLsb' 0 32).extractLsb' 0 24
              ∧ (v.extractLsb' 0 32).extractLsb' 28 4 = (w.extractLsb' 0 32).extractLsb' 28 4))
    ∧ (∀ t u r, exec (.rd32l f q) s = .next t → t.answers = ⟨.rd32l f q, r⟩ :: s.answers →
      u.impl = s.impl → u.powered = s.powered → u.risSel.get f = s.risSel.get f →
      exec (.rd32l f q) u = .next { u with answers := ⟨.rd32l f q, r⟩ :: u.answers })

/-- R103, with the byte order and the layouts the spec decides (D5, D6; log entries 14, 15). `RD32H.S` and `RD32H.NS`
complete with bits [63:32] of `IDRValue(f)` where `RegWidth == 64`, are refused where it is 32 (so always without
`FEAT_MPAM`), return 0 where `EXT(f) == 0`, return 0 in bits [31:28], [23:8] and [3:1], and with resource instances bits
[5:4] are those of the selected one and the rest does not depend on the selector. -/
def Obligations.Rd32hReturnsHighHalf : Prop :=
  ∀ (f : Frame) (q : Requester) (s : State), Accepts s q f →
    (regWidth s.impl = 32 → exec (.rd32h f q) s = .refused .offsetNotInScope)
    ∧ (s.impl.WF → s.impl.featMPAM = false → exec (.rd32h f q) s = .refused .offsetNotInScope)
    ∧ (regWidth s.impl = 64 → ∀ v, idrValue s f = some v →
      exec (.rd32h f q) s = .next { s with answers := ⟨.rd32h f q, .word32 (v.extractLsb' 32 32)⟩ :: s.answers })
    ∧ (regWidth s.impl = 64 → idrValue s f = none → exec (.rd32h f q) s = .refused .risOutOfRange)
    ∧ (regWidth s.impl = 64 → s.impl.WF → ∀ v, idrValue s f = some v →
      (ext (s.impl.idrOf f 0#4) = false → v.extractLsb' 32 32 = 0#32)
      ∧ (v.extractLsb' 32 32).extractLsb' 28 4 = 0#4
      ∧ (v.extractLsb' 32 32).extractLsb' 8 16 = 0#16
      ∧ (v.extractLsb' 32 32).extractLsb' 1 3 = 0#3
      ∧ (hasRis (s.impl.idrOf f 0#4) = true →
          (v.extractLsb' 32 32).extractLsb' 4 2 = (s.impl.idrOf f (s.risSel.get f)).extractLsb' 36 2
          ∧ ∀ n w, idrValue (setRis f n s) f = some w →
              (v.extractLsb' 32 32).extractLsb' 0 4 = (w.extractLsb' 32 32).extractLsb' 0 4
              ∧ (v.extractLsb' 32 32).extractLsb' 6 26 = (w.extractLsb' 32 32).extractLsb' 6 26))

/-- R104, with the refusals the spec decides (D6, D14; log entries 15, 18). `RD64.S` and `RD64.NS` complete with all 64
bits of one evaluation of `IDRValue(f)` where `RegWidth == 64`, and are refused where it is 32; the value is well
formed, its reserved bits are 0, its upper half is 0 where `EXT == 0`, and with resource instances it is wholly the
selected instance's. -/
def Obligations.Rd64ReturnsWholeRegister : Prop :=
  ∀ (f : Frame) (q : Requester) (s : State), Accepts s q f →
    (regWidth s.impl = 32 → exec (.rd64 f q) s = .refused .offsetNotInScope)
    ∧ (regWidth s.impl = 64 → ∀ v, idrValue s f = some v →
      exec (.rd64 f q) s = .next { s with answers := ⟨.rd64 f q, .word64 v⟩ :: s.answers })
    ∧ (regWidth s.impl = 64 → idrValue s f = none → exec (.rd64 f q) s = .refused .risOutOfRange)
    ∧ (regWidth s.impl = 64 → s.impl.WF → ∀ v, idrValue s f = some v →
      WFval64 v
      ∧ v &&& 0xF0FFFF0E_00000000#64 = 0#64
      ∧ (v.getLsbD 28 = false → v.extractLsb' 32 32 = 0#32)
      ∧ (hasRis (s.impl.idrOf f 0#4) = true → v = s.impl.idrOf f (s.risSel.get f)))

/-- R105. `WR32L`, `WR32H` and `WR64`, in both frames and for every data, complete with the response `WriteResponse` and
change nothing else. That the response is `ignored` without `FEAT_MPAM` is the spec's decision D10. -/
def Obligations.WritesAreDiscarded : Prop :=
  ∀ (f : Frame) (q : Requester) (s : State), Accepts s q f →
    ∃ r, (s.impl.featMPAM = true → r = s.impl.writeResponse) ∧ (s.impl.featMPAM = false → r = WriteResponse.ignored)
      ∧ (∀ d, exec (.wr32l f q d) s = .next { s with answers := ⟨.wr32l f q d, .response r⟩ :: s.answers })
      ∧ (regWidth s.impl = 64 → ∀ d,
          exec (.wr32h f q d) s = .next { s with answers := ⟨.wr32h f q d, .response r⟩ :: s.answers })
      ∧ (regWidth s.impl = 64 → ∀ d,
          exec (.wr64 f q d) s = .next { s with answers := ⟨.wr64 f q d, .response r⟩ :: s.answers })

/-- R53, arm by arm: what the register shows. The refusal of the last arm is the spec's decision D14. -/
def Obligations.IdrValueFollowsSelection : Prop :=
  ∀ (s : State) (f : Frame),
    (s.impl.featMPAM = false → idrValue s f = some 0#64)
    ∧ (s.impl.featMPAM = true → (s.impl.idrOf f 0#4).getLsbD 32 = false → idrValue s f = some (s.impl.idrOf f 0#4))
    ∧ (s.impl.featMPAM = true → (s.impl.idrOf f 0#4).getLsbD 32 = true →
        s.risSel.get f ≤ (s.impl.idrOf f 0#4).extractLsb' 56 4 →
        idrValue s f = some (s.impl.idrOf f (s.risSel.get f)))
    ∧ (s.impl.featMPAM = true → (s.impl.idrOf f 0#4).getLsbD 32 = true →
        (s.impl.idrOf f 0#4).extractLsb' 56 4 < s.risSel.get f → idrValue s f = none)

/-- R53, D14. With resource instances and a selector above `RIS_MAX` each read is refused. -/
def Obligations.ReadsRefuseSelectorAboveRisMax : Prop :=
  ∀ (f : Frame) (q : Requester) (s : State), Accepts s q f → s.impl.featMPAM = true → regWidth s.impl = 64 →
    hasRis (s.impl.idrOf f 0#4) = true → risMax (s.impl.idrOf f 0#4) < s.risSel.get f →
    exec (.rd32l f q) s = .refused .risOutOfRange ∧ exec (.rd32h f q) s = .refused .risOutOfRange
      ∧ exec (.rd64 f q) s = .refused .risOutOfRange

/-- R22, R107 (with D2, a part of `Impl.WF`). Without `FEAT_MPAM` the location is 32 bits wide, reads 0 and ignores
writes; every operation that needs 64 bits is refused; the selector is never read. -/
def Obligations.WithoutMpamLocationIsRes0 : Prop :=
  ∀ (f : Frame) (q : Requester) (s : State), s.impl.WF → s.impl.featMPAM = false → Accepts s q f →
    regWidth s.impl = 32
    ∧ exec (.rd32l f q) s = .next { s with answers := ⟨.rd32l f q, .word32 0#32⟩ :: s.answers }
    ∧ (∀ d, exec (.wr32l f q d) s
        = .next { s with answers := ⟨.wr32l f q d, .response .ignored⟩ :: s.answers })
    ∧ (∀ i : Instr, i.needs64 = true → i.frame = f → i.requester = q → exec i s = .refused .offsetNotInScope)
    ∧ (∀ x k, readByte { s with risSel := x } f k = if k < 4 then some 0#8 else none)

/-- R86, R101, R143. An access is refused for the first check it fails, in the order written there, and otherwise runs
the row its kind, frame, offset and size select. -/
def Obligations.AccessRefusedForFirstReason : Prop :=
  ∀ (a : Access) (s : State),
    ((∃ k, a.kind = .other k) → deliverAccess a s = .refused .accessKindNotInSource)
    ∧ ((∀ k, a.kind ≠ .other k) →
      (s.powered = false → deliverAccess a s = .refused .unpowered)
      ∧ (s.powered = true → s.impl.frames.get a.frame = false → deliverAccess a s = .refused .noSuchFrame)
      ∧ (s.powered = true → s.impl.frames.get a.frame = true → (a.requester, a.frame) ∈ s.impl.barred →
          deliverAccess a s = .refused .frameNotReachable)
      ∧ (Accepts s a.requester a.frame →
          (regWidth s.impl / 8 ≤ a.offset ∨ regWidth s.impl / 8 < a.offset + a.size →
            deliverAccess a s = .refused .offsetNotInScope)
          ∧ (a.offset < regWidth s.impl / 8 → a.offset + a.size ≤ regWidth s.impl / 8 →
              ((a.offset, a.size) ∉ [(0x0000, 4), (0x0004, 4), (0x0000, 8)] →
                deliverAccess a s = .refused .accessSizeNotInSource)
              ∧ ((a.offset, a.size) ∈ [(0x0000, 4), (0x0004, 4), (0x0000, 8)] →
                ∃ i : Instr, decode a = .ok i ∧ i.frame = a.frame ∧ i.requester = a.requester
                  ∧ i.WF s.impl.haveMPAMExt ∧ deliverAccess a s = exec i s))))

/-- R100, R70. A step takes the next access of the device order and delivers it in the state without that access,
whether it decodes or not (`AccessRefusedForFirstReason` says what that gives); the operation it selects runs. The
placing of a packed word as the next access (log entries 5 and 7) runs the operation that word decodes to. -/
def Obligations.StepRunsDecodedOperation : Prop :=
  (∀ (s : State) (a : Access) (rest : List Event),
    s.queue = .access a :: rest → step s = deliverAccess a { s with queue := rest }) ∧
  (∀ (s : State) (a : Access) (rest : List Event) (i : Instr),
    s.queue = .access a :: rest → decode a = .ok i → step s = exec i { s with queue := rest })
  ∧ ∀ (s : State) (n w : Nat) (i : Instr),
    decodeTableWord n w = some i → step (s.withFetchWord n w) = exec i s

/-- R100. An access by address inside the feature page of its map is the access at that offset; elsewhere it is refused,
which is the model's choice (log entry 11). -/
def Obligations.MemoryAccessReachesFrameOffset : Prop :=
  ∀ (s : State) (m : MemAccess) (rest : List Event), s.queue = .memory m :: rest →
    (s.impl.base.get m.map ≤ m.address → m.address < s.impl.base.get m.map + s.impl.frameSize →
      step s = step { s with
        queue := .access ⟨m.requester, m.kind, m.map, m.address - s.impl.base.get m.map, m.size⟩ :: rest })
    ∧ (m.address < s.impl.base.get m.map ∨ s.impl.base.get m.map + s.impl.frameSize ≤ m.address →
      step s = .refused .addressOutsideFrame)

/-- R52 (the spec's decision D4). `SetRIS(f, n)` sets `ris_sel[f]` and changes nothing else. R52 has the step for `f` in
`Frames`; that it does the same for an absent frame is the model's choice (log entry 32). -/
def Obligations.SetRisChangesOnlyItsSelector : Prop :=
  ∀ (s : State) (f : Frame) (n : RisNum) (rest : List Event), s.queue = .setRis f n :: rest →
    ∃ x : PerFrame RisNum, step s = .next { s with queue := rest, risSel := x }
      ∧ x.get f = n ∧ ∀ g, g ≠ f → x.get g = s.risSel.get g

/-- R152, R171 (the spec's decision D16). A power change gives `Powered` the new level and leaves both selectors free
values, that of an absent frame too; switching to the level that holds changes nothing (the model's choices, log entries
8, 9 and 32). The statement holds for every value of
the free constant. -/
def Obligations.PowerChangeFreesSelectors : Prop :=
  ∀ (s : State) (b : Bool) (rest : List Event), s.queue = .power b :: rest →
    (b = s.powered → step s = .next { s with queue := rest })
    ∧ (b ≠ s.powered → step s = .next { s with
        queue := rest
        powered := b
        risSel := ⟨Config.freeRisSel s.draws, Config.freeRisSel (s.draws + 1)⟩
        draws := s.draws + 2 })

/-- R165, R171: the register never changes by itself. That an empty device order makes a step that changes nothing is the
model's choice (log entry 6). -/
def Obligations.IdleStepChangesNothing : Prop :=
  ∀ s : State, s.queue = [] → step s = .next s

/-- R152, R86 (1). While the power domain is off every operation is refused. -/
def Obligations.UnpoweredRefusesEveryOperation : Prop :=
  ∀ (s : State) (i : Instr), s.powered = false → exec i s = .refused .unpowered

/-- R54, R56. No access operation and no step of the environment changes `IDR` or any other parameter. -/
def Obligations.ImplementationNeverChanges : Prop :=
  (∀ (i : Instr) (s t : State), exec i s = .next t → t.impl = s.impl)
  ∧ ∀ s t : State, step s = .next t → t.impl = s.impl ∧ t.impl.idr = s.impl.idr

/-- R52, R68, R152. The spec's whole mutable state changes only by the environment: the selector of a frame by its own
`SetRIS` or a power change, `Powered` by a power change. Two clauses are the model's choices: that a power event to the
level that holds is no power change and disturbs no selector (log entry 9, DEDUCED), and the clause about the model's own
counter `draws` (log entry 8). -/
def Obligations.OnlyEnvironmentChangesState : Prop :=
  ∀ s t : State, step s = .next t →
    (∀ f, t.risSel.get f ≠ s.risSel.get f →
      (∃ n rest, s.queue = .setRis f n :: rest) ∨ ∃ rest, s.queue = .power (!s.powered) :: rest)
    ∧ (t.powered ≠ s.powered → ∃ rest, s.queue = .power (!s.powered) :: rest)
    ∧ (t.draws ≠ s.draws → ∃ rest, s.queue = .power (!s.powered) :: rest)

/-- R68, R54, R64. The frame of all twelve operations: one that completes adds its answer and leaves the implementation,
the power, both selectors, the free values, the device order and every byte of both frames as they were. The answers, the
device order and the counter of free values are the model's own fields (log entries 5 and 8). -/
def Obligations.OperationsOnlyAnswer : Prop :=
  ∀ (i : Instr) (s t : State), exec i s = .next t →
    (∃ r, t.answers = ⟨i, r⟩ :: s.answers)
    ∧ t.impl = s.impl ∧ t.powered = s.powered ∧ t.risSel = s.risSel ∧ t.draws = s.draws ∧ t.queue = s.queue
    ∧ ∀ f k, readByte t f k = readByte s f k

/-- R85, R86, R105. When an operation completes: exactly when it is accepted, the layout has it and, for a read, the
register shows a value. -/
def Obligations.OperationCompletesExactlyWhen : Prop :=
  ∀ (i : Instr) (s : State),
    (∃ t, exec i s = .next t) ↔
      Accepts s i.requester i.frame ∧ (i.needs64 = true → regWidth s.impl = 64)
        ∧ (i.isRead = true → ∃ v, idrValue s i.frame = some v)

/-- R65, R85. An access that completes is a row of the selector table, admitted in the layout. -/
def Obligations.OnlyTableAccessesComplete : Prop :=
  ∀ (s t : State) (a : Access) (rest : List Event), s.queue = .access a :: rest → step s = .next t →
    (a.kind = .read ∨ ∃ d, a.kind = .write d)
    ∧ ((a.offset = 0x0000 ∧ a.size = 4)
      ∨ (a.offset = 0x0004 ∧ a.size = 4 ∧ regWidth s.impl = 64)
      ∨ (a.offset = 0x0000 ∧ a.size = 8 ∧ regWidth s.impl = 64))
    ∧ ∃ i r, decode a = .ok i ∧ t.answers = ⟨i, r⟩ :: s.answers

/-- R85, R91. For every operation, with every requester and every data: the access that issues it decodes to it, and so
does its packed form (log entry 7). -/
def Obligations.DecodeEncodeRoundTrip : Prop :=
  ∀ i : Instr, decode (encode i) = .ok i ∧ decodeWord (encodeWord i) = .ok i

/-- R85: a decoder must match on all of kind, frame, offset and size. No two accesses, with data of their size, select
the same operation: the selected one encodes back to the access. -/
def Obligations.DecodedAccessIsTheEncodedOne : Prop :=
  ∀ (a : Access) (i : Instr), decode a = .ok i → a.WF → encode i = a

/-- The packed form of an access (the model's own, log entry 7) loses nothing of kind, frame, offset, size, data and
requester. -/
def Obligations.PackedFormLosesNothing : Prop :=
  ∀ a : Access, a.Packable → unpack (pack a) = a

/-- R85: the twelve rows of the selector table, each with requester 7 and, for a write, data 0xA5, and four packed words
written out bit field by bit field (log entry 7). -/
def Obligations.SelectorTableRows : Prop :=
  decode ⟨7, .read, .secure, 0x0000, 4⟩ = .ok (.rd32lS 7)
  ∧ decode ⟨7, .read, .nonSecure, 0x0000, 4⟩ = .ok (.rd32lNS 7)
  ∧ decode ⟨7, .read, .secure, 0x0004, 4⟩ = .ok (.rd32hS 7)
  ∧ decode ⟨7, .read, .nonSecure, 0x0004, 4⟩ = .ok (.rd32hNS 7)
  ∧ decode ⟨7, .read, .secure, 0x0000, 8⟩ = .ok (.rd64S 7)
  ∧ decode ⟨7, .read, .nonSecure, 0x0000, 8⟩ = .ok (.rd64NS 7)
  ∧ decode ⟨7, .write 0xA5, .secure, 0x0000, 4⟩ = .ok (.wr32lS 7 0xA5#32)
  ∧ decode ⟨7, .write 0xA5, .nonSecure, 0x0000, 4⟩ = .ok (.wr32lNS 7 0xA5#32)
  ∧ decode ⟨7, .write 0xA5, .secure, 0x0004, 4⟩ = .ok (.wr32hS 7 0xA5#32)
  ∧ decode ⟨7, .write 0xA5, .nonSecure, 0x0004, 4⟩ = .ok (.wr32hNS 7 0xA5#32)
  ∧ decode ⟨7, .write 0xA5, .secure, 0x0000, 8⟩ = .ok (.wr64S 7 0xA5#64)
  ∧ decode ⟨7, .write 0xA5, .nonSecure, 0x0000, 8⟩ = .ok (.wr64NS 7 0xA5#64)
  ∧ decodeTableWord 16 0x0000 = some (.rd32lS 0)
  ∧ decodeTableWord 16 0x0004 = some (.rd32hS 0)
  ∧ decodeWord 0x00C80000 = .ok (.rd64NS 0)
  ∧ decodeWord 0x07_00000000000000A5_00010004 = .ok (.wr32hS 7 0xA5#32)

/-- R54, R85, R102 to R107, as an invariant every step keeps: the implementation stays well formed and every answer ever
given is one this implementation may give to that operation. The list of answers is the model's own (log entry 5). -/
def Obligations.StepKeepsAnswersTruthful : Prop :=
  ∀ s t : State, Inv s → step s = .next t → Inv t

/-- R55, R160. The invariant holds after reset of every well-formed implementation, whatever the power and the selectors
are, and at the model's own reset state, whose choices are log entries 2 to 5. -/
def Obligations.ResetIsTruthful : Prop :=
  (∀ (p : Impl) (b : Bool) (x : PerFrame RisNum), p.WF → Inv (State.resetOf p b x)) ∧ Inv State.reset

/-- R161, R55. The first read after reset, with every selector value the spec leaves open: without resource instances it
returns `IDR[f][0]` whatever the selector is; with them the 58 bits outside `RISDEP` are those of `IDR[f][0]`, or the
read is refused. -/
def Obligations.FirstReadAfterReset : Prop :=
  ∀ (p : Impl) (x : PerFrame RisNum) (f : Frame) (q : Requester), p.WF → p.haveMPAMExt = true →
    p.frames.get f = true → (q, f) ∉ p.barred →
    (hasRis (p.idrOf f 0#4) = false →
      step { State.resetOf p true x with queue := [.access (encode (.rd64 f q))] }
        = .next { State.resetOf p true x with answers := [⟨.rd64 f q, .word64 (p.idrOf f 0#4)⟩] })
    ∧ (hasRis (p.idrOf f 0#4) = true → x.get f ≤ risMax (p.idrOf f 0#4) →
      ∃ v, step { State.resetOf p true x with queue := [.access (encode (.rd64 f q))] }
        = .next { State.resetOf p true x with answers := [⟨.rd64 f q, .word64 v⟩] }
        ∧ v &&& ~~~0x00000030_0F000000#64 = p.idrOf f 0#4 &&& ~~~0x00000030_0F000000#64)
    ∧ (hasRis (p.idrOf f 0#4) = true → risMax (p.idrOf f 0#4) < x.get f →
      step { State.resetOf p true x with queue := [.access (encode (.rd64 f q))] } = .refused .risOutOfRange)

/-- R42, whole. Reserved bits read as zero in every instance, for every resource instance, and in each layout only the
defined bits can be non-zero. -/
def Obligations.ReservedBitsReadZero : Prop :=
  ∀ (s : State) (f : Frame) (v : Word64), s.impl.WF → s.impl.frames.get f = true → idrValue s f = some v →
    (regWidth s.impl = 64 →
      v.extractLsb' 60 4 = 0#4 ∧ v.extractLsb' 40 16 = 0#16 ∧ v.extractLsb' 33 3 = 0#3
        ∧ v &&& 0xF0FFFF0E_00000000#64 = 0#64 ∧ v &&& ~~~0x0F0000F1_FFFFFFFF#64 = 0#64)
    ∧ (regWidth s.impl = 32 → v.getLsbD 28 = false ∧ v &&& ~~~0x00000000_EFFFFFFF#64 = 0#64)

/-- R87, R26 to R35. Every field whose "When" condition fails in the value shown reads as zero. -/
def Obligations.AbsentFieldsReadZero : Prop :=
  ∀ (s : State) (f : Frame) (v : Word64) (x : Field), s.impl.WF → s.impl.frames.get f = true →
    idrValue s f = some v → fieldPresent s.impl.haveMPAMExt v x = false → extractField v x = 0#64

/-- R44, R45, R46. Every value shown in the 64-bit layout: `RIS_MAX` is 0 without `HAS_RIS`, `NO_IMPL_MSMON` and
`NO_IMPL_PART` are 0 without `HAS_IMPL_IDR`, and `HAS_EXTD_ESR` is 1 with `HAS_RIS` and `HAS_ESR`. -/
def Obligations.ShownValuesMeetFieldConstraints : Prop :=
  ∀ (s : State) (f : Frame) (v : Word64), s.impl.WF → s.impl.frames.get f = true → regWidth s.impl = 64 →
    idrValue s f = some v →
    (v.getLsbD 32 = false → v.extractLsb' 56 4 = 0#4)
    ∧ (v.getLsbD 29 = false → v.getLsbD 37 = false ∧ v.getLsbD 36 = false)
    ∧ (v.getLsbD 32 = true → v.getLsbD 39 = true → v.getLsbD 38 = true)

/-- R48. The fields that mention RIS are the six of `RISDEP`; every other bit of the register is the same whatever
instance is selected, in particular `EXT`, `HAS_RIS`, `RIS_MAX`, `HAS_IMPL_IDR`, `HAS_MSMON`, `HAS_ESR`, `PMG_MAX` and
`PARTID_MAX`; without `HAS_RIS` only `IDR[f][0]` is read, and no value above `RIS_MAX` ever is. -/
def Obligations.RisIndependentBitsAgree : Prop :=
  (Field.all.filter Field.dependsOnRis =
      [.noImplMsmon, .noImplPart, .hasPriPart, .hasMbwPart, .hasCporPart, .hasCcapPart])
  ∧ (Field.all.filter Field.dependsOnRis).foldr (fun x m => x.mask ||| m) 0#64 = 0x00000030_0F000000#64
  ∧ ∀ (s t : State) (f : Frame) (v w : Word64), s.impl.WF → s.impl.featMPAM = true →
      s.impl.frames.get f = true → t.impl = s.impl → idrValue s f = some v → idrValue t f = some w →
      v &&& ~~~0x00000030_0F000000#64 = w &&& ~~~0x00000030_0F000000#64
      ∧ v &&& ~~~0x00000030_0F000000#64 = s.impl.idrOf f 0#4 &&& ~~~0x00000030_0F000000#64
      ∧ (∀ x : Field, x.dependsOnRis = false → extractField v x = extractField w x)
      ∧ (hasRis (s.impl.idrOf f 0#4) = false → v = s.impl.idrOf f 0#4)
      ∧ ∃ r, r ≤ risMax (s.impl.idrOf f 0#4) ∧ v = s.impl.idrOf f r

/-- R53, R51, R165. A selector matters only to the reads of its own frame, and there only with resource instances: every
other operation answers the same whatever that selector is. -/
def Obligations.SelectorMattersOnlyToItsFrame : Prop :=
  ∀ (i : Instr) (s : State) (g : Frame) (n : RisNum),
    i.frame ≠ g ∨ i.isRead = false ∨ hasRis (s.impl.idrOf g 0#4) = false ∨ s.impl.featMPAM = false →
    (∀ t, exec i s = .next t → exec i (setRis g n s) = .next (setRis g n t))
    ∧ ∀ r, exec i s = .refused r → exec i (setRis g n s) = .refused r

/-- R68, R105. No access disturbs another: after any operation that completed, every operation is refused for the same
reason or answers the same as without it. With a write first, every later read returns what it would have returned
without the write; with the same read first, reading is idempotent. -/
def Obligations.AccessesDoNotDisturbEachOther : Prop :=
  ∀ (w i : Instr) (s t : State), exec w s = .next t →
    (∀ r, exec i s = .refused r → exec i t = .refused r)
    ∧ ∀ u, exec i s = .next u → ∃ r, u.answers = ⟨i, r⟩ :: s.answers
        ∧ exec i t = .next { t with answers := ⟨i, r⟩ :: t.answers }

/-- R165, R68, R70. Over any run with no `SetRIS` of frame `f` and no power event in the device order, of any length,
every value frame `f` shows stays the same. That a run longer than the device order goes on idle is the model's choice
(log entry 6). -/
def Obligations.QuietRunKeepsValue : Prop :=
  ∀ (k : Nat) (s t : State) (f : Frame), Host.Core.run Sys2Proof.core k s = .next t →
    (∀ e ∈ s.queue, Quiet f e) →
    idrValue t f = idrValue s f ∧ t.impl = s.impl ∧ t.powered = s.powered ∧ t.queue = s.queue.drop k

/-- R106, R91. `RDPAIR.f` with nothing between its halves, in either order: two steps, two answers `lo` and `hi`, and
`hi : lo` is what `RD64.f` would have returned. -/
def Obligations.PairEqualsWholeRead : Prop :=
  ∀ (f : Frame) (q : Requester) (s : State) (v : Word64) (rest : List Event), Accepts s q f →
    regWidth s.impl = 64 → idrValue s f = some v →
    ∃ lo hi : Word32, pairValue hi lo = v
      ∧ exec (.rd64 f q) s = .next { s with answers := ⟨.rd64 f q, .word64 v⟩ :: s.answers }
      ∧ (s.queue = rdpair f q ++ rest →
        ∃ t, step s = .next t ∧ step t = .next { s with
          queue := rest
          answers := ⟨.rd32h f q, .word32 hi⟩ :: ⟨.rd32l f q, .word32 lo⟩ :: s.answers })
      ∧ (s.queue = rdpairHighFirst f q ++ rest →
        ∃ t, step s = .next t ∧ step t = .next { s with
          queue := rest
          answers := ⟨.rd32l f q, .word32 lo⟩ :: ⟨.rd32h f q, .word32 hi⟩ :: s.answers })

/-- R106, R67, R166: the selector hazard. With a `SetRIS(f, n)` between the halves of `RDPAIR.f`, bits [27:24] of the
pair are those of the instance selected before, bits [37:36] those of the instance selected after, and every other bit
is the same for all instances. -/
def Obligations.TornPairMixesTwoInstances : Prop :=
  ∀ (f : Frame) (q : Requester) (s : State) (n : RisNum) (rest : List Event), s.impl.WF → Accepts s q f →
    regWidth s.impl = 64 → hasRis (s.impl.idrOf f 0#4) = true →
    s.risSel.get f ≤ risMax (s.impl.idrOf f 0#4) → n ≤ risMax (s.impl.idrOf f 0#4) →
    s.queue = .access (encode (.rd32l f q)) :: .setRis f n :: .access (encode (.rd32h f q)) :: rest →
    ∃ (lo hi : Word32) (t1 t2 t3 : State), step s = .next t1 ∧ step t1 = .next t2 ∧ step t2 = .next t3
      ∧ t3.answers = ⟨.rd32h f q, .word32 hi⟩ :: ⟨.rd32l f q, .word32 lo⟩ :: s.answers
      ∧ t3.risSel.get f = n ∧ t3.queue = rest
      ∧ (pairValue hi lo).extractLsb' 24 4 = (s.impl.idrOf f (s.risSel.get f)).extractLsb' 24 4
      ∧ (pairValue hi lo).extractLsb' 36 2 = (s.impl.idrOf f n).extractLsb' 36 2
      ∧ pairValue hi lo &&& ~~~0x00000030_0F000000#64 = s.impl.idrOf f 0#4 &&& ~~~0x00000030_0F000000#64
      ∧ WFval64 (pairValue hi lo)

/-- R127, R52. Selecting an implemented instance `r` and then reading returns `IDR[f][r]`, which agrees with every other
instance outside `RISDEP`. -/
def Obligations.SelectThenReadDiscoversInstance : Prop :=
  ∀ (f : Frame) (q : Requester) (s : State) (r : RisNum) (rest : List Event), s.impl.WF → Accepts s q f →
    regWidth s.impl = 64 → hasRis (s.impl.idrOf f 0#4) = true → r ≤ risMax (s.impl.idrOf f 0#4) →
    s.queue = .setRis f r :: .access (encode (.rd64 f q)) :: rest →
    ∃ t u, step s = .next t ∧ step t = .next u ∧ u.risSel.get f = r ∧ u.queue = rest
      ∧ u.answers = ⟨.rd64 f q, .word64 (s.impl.idrOf f r)⟩ :: s.answers
      ∧ s.impl.idrOf f r &&& ~~~0x00000030_0F000000#64 = s.impl.idrOf f 0#4 &&& ~~~0x00000030_0F000000#64

/-- R64 (the spec's decision D5), R62. The register is little-endian in its frame: the byte at offset `k` is bits
`[8k+7 : 8k]` of the value, the word at `0x0000` is made of bytes 0 to 3 and the word at `0x0004` of bytes 4 to 7, and no
byte past `RegWidth/8` belongs to it. -/
def Obligations.RegisterIsLittleEndian : Prop :=
  ∀ (s : State) (f : Frame) (v : Word64), idrValue s f = some v →
    (∀ k, k < regWidth s.impl / 8 → ∃ b, readByte s f k = some b ∧ b.toNat = v.toNat / 2 ^ (8 * k) % 2 ^ 8)
    ∧ (∀ k, regWidth s.impl / 8 ≤ k → readByte s f k = none)
    ∧ (∀ k, k < 4 → (lowHalf v).extractLsb' (8 * k) 8 = byteOf v k
        ∧ (highHalf v).extractLsb' (8 * k) 8 = byteOf v (4 + k))
    ∧ ∀ j, j < 64 → v.getLsbD j = (byteOf v (j / 8)).getLsbD (j % 8)

/-- R83, whole. One extraction function, mask and shift, gives each of the sixteen fields at its bits, read as an
unsigned number; and the halves `lo`, `hi` of a value give it back as `hi : lo`. -/
def Obligations.FieldExtractionIsSlicing : Prop :=
  ∀ v : Word64,
    extractField v .risMax = (v.extractLsb' 56 4).setWidth 64
    ∧ extractField v .hasEsr = (v.extractLsb' 39 1).setWidth 64
    ∧ extractField v .hasExtdEsr = (v.extractLsb' 38 1).setWidth 64
    ∧ extractField v .noImplMsmon = (v.extractLsb' 37 1).setWidth 64
    ∧ extractField v .noImplPart = (v.extractLsb' 36 1).setWidth 64
    ∧ extractField v .hasRis = (v.extractLsb' 32 1).setWidth 64
    ∧ extractField v .hasPartidNrw = (v.extractLsb' 31 1).setWidth 64
    ∧ extractField v .hasMsmon = (v.extractLsb' 30 1).setWidth 64
    ∧ extractField v .hasImplIdr = (v.extractLsb' 29 1).setWidth 64
    ∧ extractField v .ext = (v.extractLsb' 28 1).setWidth 64
    ∧ extractField v .hasPriPart = (v.extractLsb' 27 1).setWidth 64
    ∧ extractField v .hasMbwPart = (v.extractLsb' 26 1).setWidth 64
    ∧ extractField v .hasCporPart = (v.extractLsb' 25 1).setWidth 64
    ∧ extractField v .hasCcapPart = (v.extractLsb' 24 1).setWidth 64
    ∧ extractField v .pmgMax = (v.extractLsb' 16 8).setWidth 64
    ∧ extractField v .partidMax = (v.extractLsb' 0 16).setWidth 64
    ∧ (∀ x : Field, extractField v x = (v &&& x.mask) >>> x.lo)
    ∧ pairValue (highHalf v) (lowHalf v) = v

/-- R81. The masks of the sixteen fields and of the reserved bits are disjoint and their union is all 64 bits. -/
def Obligations.FieldMasksPartitionRegister : Prop :=
  (Field.all.map Field.mask ++ [0xF0FFFF0E_00000000#64]).Pairwise (fun a b => a &&& b = 0#64)
  ∧ (Field.all.map Field.mask ++ [0xF0FFFF0E_00000000#64]).foldr (fun a b => a ||| b) 0#64 = ~~~0#64
  ∧ ∀ x ∈ Field.all, x.mask = ((~~~0#64) >>> (64 - x.width)) <<< x.lo

/-- R121, R163. A low half that was read with `EXT == 1` says that the register is 64 bits wide, so that `RD32H` of the
same frame by the same requester completes next. -/
def Obligations.ExtMeansHighHalfReadable : Prop :=
  ∀ (f : Frame) (q : Requester) (s t : State) (lo : Word32), s.impl.WF →
    exec (.rd32l f q) s = .next t → t.answers = ⟨.rd32l f q, .word32 lo⟩ :: s.answers → lo.getLsbD 28 = true →
    regWidth s.impl = 64
    ∧ ∃ hi : Word32, exec (.rd32h f q) t
        = .next { t with answers := ⟨.rd32h f q, .word32 hi⟩ :: t.answers }

/-- R120, R123, R124, R125. With `EXT == 0` the value says nothing about error handling, IMPLEMENTATION DEFINED controls
and monitors or the `RIS` field; with the conditions met each bit says what the source says. -/
def Obligations.AbsentFieldsSayNothing : Prop :=
  ∀ v : Word64,
    (v.getLsbD 28 = false → errorHandling v = none ∧ esrIs64Bits v = none ∧ implControls v = none
      ∧ implMonitors v = none ∧ risSelector v = none ∧ resourceInstances v = none
      ∧ registerExists v .mpamfEsr = none ∧ registerExists v .mpamfEcr = none)
    ∧ (v.getLsbD 29 = false → implControls v = none ∧ implMonitors v = none)
    ∧ (v.getLsbD 28 = true → errorHandling v = some (v.getLsbD 39)
      ∧ (v.getLsbD 39 = true → esrIs64Bits v = some (v.getLsbD 38))
      ∧ (v.getLsbD 29 = true → implControls v = some (!v.getLsbD 36) ∧ implMonitors v = some (!v.getLsbD 37))
      ∧ risSelector v = some (v.getLsbD 32)
      ∧ (v.getLsbD 32 = false → resourceInstances v = some 1)
      ∧ (v.getLsbD 32 = true → resourceInstances v = some ((v.extractLsb' 56 4).toNat + 1)))

/-- R122. The registers whose existence the always-present one-bit fields report. -/
def Obligations.AlwaysPresentFieldsReportRegisters : Prop :=
  ∀ v : Word64,
    registerExists v .mpamfPartidNrwIdr = some (v.getLsbD 31)
    ∧ registerExists v .mpamcfgIntpartid = some (v.getLsbD 31)
    ∧ registerExists v .mpamfMsmonIdr = some (v.getLsbD 30)
    ∧ registerExists v .mpamfImplIdr = some (v.getLsbD 29)
    ∧ registerExists v .mpamfPriIdr = some (v.getLsbD 27)
    ∧ registerExists v .mpamfMbwIdr = some (v.getLsbD 26)
    ∧ registerExists v .mpamfCporIdr = some (v.getLsbD 25)
    ∧ registerExists v .mpamcfgCpbm = some (v.getLsbD 25)
    ∧ registerExists v .mpamfCcapIdr = some (v.getLsbD 24)
    ∧ registerExists v .mpamcfgCmax = some (v.getLsbD 24)

/-- R126, R84. The maxima are inclusive: the PARTID and PMG values supported are `0 .. MAX`, one more than the field. -/
def Obligations.MaximaAreInclusive : Prop :=
  ∀ (v : Word64) (n : Nat),
    (partidSupported v n = true ↔ n < (extractField v .partidMax).toNat + 1)
    ∧ (pmgSupported v n = true ↔ n < (extractField v .pmgMax).toNat + 1)
    ∧ (extractField v .partidMax).toNat + 1 ≤ 65536 ∧ (extractField v .pmgMax).toNat + 1 ≤ 256

/-- R61, R23: "MPAMF_IDR must be readable from the Non-secure and Secure MPAM feature pages". In a system with both
memory maps, with the power on, an instance selected where there are instances, and a requester barred from neither
frame, the low half reads from both pages. -/
def Obligations.BothPagesReadable : Prop :=
  ∀ (s : State) (q : Requester), s.impl.WF → s.impl.hasSecureMap = true → s.powered = true →
    (q, Frame.secure) ∉ s.impl.barred → (q, Frame.nonSecure) ∉ s.impl.barred →
    Selected s .secure → Selected s .nonSecure →
    (∃ v, exec (.rd32lS q) s = .next { s with answers := ⟨.rd32lS q, .word32 v⟩ :: s.answers })
    ∧ ∃ v, exec (.rd32lNS q) s = .next { s with answers := ⟨.rd32lNS q, .word32 v⟩ :: s.answers }

/-- R85, R86, R140, R13. When each outcome of a step occurs: it completes exactly when the device order is empty (log
entry 6), or its next event is a step of the environment or brings an access that completes; in every other state it is
refused, and there is no third outcome. That a `SetRIS` of an absent frame completes is the model's choice (log entry
32), and so is the refusal of an address outside every feature page (log entry 11). -/
def Obligations.StepCompletesExactlyWhen : Prop :=
  ∀ s : State,
    ((∃ t, step s = .next t) ↔ s.queue = [] ∨ ∃ e rest, s.queue = e :: rest ∧
      ((∃ f n, e = .setRis f n) ∨ (∃ b, e = .power b) ∨ ∃ a, Brings s.impl e a ∧ Completes s a))
    ∧ ((∃ r, step s = .refused r) ↔ ∃ e rest, s.queue = e :: rest ∧
      (∀ f n, e ≠ .setRis f n) ∧ (∀ b, e ≠ .power b) ∧ ∀ a, Brings s.impl e a → ¬Completes s a)

/-- R88, R143, R53. Each refusal of a step and what it says of the access at the head of the device order (as itself or
by an address inside a feature page): each of the spec's seven reasons with its condition on that access, and
`ris_out_of_range` only for a read of a frame that has resource instances and whose selector exceeds `RIS_MAX`. An
address outside the feature page of its map is refused by the model's choice (log entry 11). -/
def Obligations.RefusalsAreNamed : Prop :=
  ∀ (s : State) (r : Refusal), step s = .refused r →
    ∃ e rest, s.queue = e :: rest ∧
      ((r = .addressOutsideFrame ∧ ∃ m, e = .memory m ∧
          (m.address < s.impl.base.get m.map ∨ s.impl.base.get m.map + s.impl.frameSize ≤ m.address))
      ∨ ∃ a, Brings s.impl e a ∧
        ((r = .accessKindNotInSource ∧ ∃ k, a.kind = .other k)
        ∨ (r = .unpowered ∧ s.powered = false)
        ∨ (r = .noSuchFrame ∧ s.impl.frames.get a.frame = false)
        ∨ (r = .frameNotReachable ∧ (a.requester, a.frame) ∈ s.impl.barred)
        ∨ (r = .offsetNotInScope ∧
            (regWidth s.impl / 8 ≤ a.offset ∨ regWidth s.impl / 8 < a.offset + a.size))
        ∨ (r = .accessSizeNotInSource ∧ (a.offset, a.size) ∉ [(0x0000, 4), (0x0004, 4), (0x0000, 8)])
        ∨ (r = .risOutOfRange ∧ a.kind = .read ∧ s.impl.featMPAM = true
            ∧ hasRis (s.impl.idrOf a.frame 0#4) = true
            ∧ risMax (s.impl.idrOf a.frame 0#4) < s.risSel.get a.frame)))

/-- R70, R100. A step takes one event of the device order, if there is one (else the step is idle, the model's choice of
log entry 6), and gives at most one answer, to the operation it ran. -/
def Obligations.StepTakesOneEvent : Prop :=
  ∀ s t : State, step s = .next t →
    t.queue = s.queue.tail
    ∧ (t.answers = s.answers ∨ ∃ a, t.answers = a :: s.answers ∧ s.impl.frames.get a.op.frame = true)

/-- R170, R169. The launch premises of a run that is the whole device order, and names only implemented instances in its
`SetRIS` events, hold throughout: a step that completes leaves a state in which they hold of what is left. Three things
here are the model's own, not R170's: the reading of a run and of the second arm of (P-sel), `SelectsBeforeRead`, and
the further premise `NamesInstances` (log entry 33, DEDUCED); that (P-sel) survives a power event to the level that
holds (log entry 9, DEDUCED); and that a step with no event left is idle (log entry 6). -/
def Obligations.StepKeepsLaunchPremises : Prop :=
  ∀ s t : State, Launch s s.queue → NamesInstances s.impl s.queue → step s = .next t →
    Launch t t.queue ∧ NamesInstances t.impl t.queue

/-- R170, R161, R162. Under the launch premises, with (P-sel) by either arm, a run of environment steps and of accesses
that are rows of the selector table in the layout at hand is never refused, whatever its length, if its `SetRIS` events
name implemented instances. The model's own, not R170's, are: the reading of the second arm of (P-sel),
`SelectsBeforeRead`, and the further premise `NamesInstances` (log entry 33, DEDUCED); that a power event to the level
that holds changes nothing, so that no read after it is refused (log entry 9, DEDUCED); and that the steps after the last
event are idle (log entry 6). -/
def Obligations.LaunchedRunCompletes : Prop :=
  ∀ s : State, Launch s s.queue → NamesInstances s.impl s.queue →
    (∀ e ∈ s.queue, (∃ f n, e = .setRis f n) ∨ (∃ b, e = .power b)
      ∨ ∃ a i, Brings s.impl e a ∧ decode a = .ok i ∧ i.WF s.impl.haveMPAMExt) →
    (∀ k, ∃ t, Host.Core.run Sys2Proof.core k s = .next t)
    ∧ ∃ t, Host.Core.run Sys2Proof.core s.queue.length s = .next t ∧ t.queue = []

/-- R170 (P-power, P-quiet), R166, R150. A run on one frame, interleaved with other agents' events of which none is a
`SetRIS` of that frame and none switches the power off, gets the answers it would have got alone: if the device order
completes, the run alone completes, and its answers stand among all answers in their order. The model's own are: the
reading of a run and of (P-quiet) as `QuietBeside`, an interleaving (log entry 33, DEDUCED); and that another agent's
power event to the level that holds disturbs nothing (log entry 9, DEDUCED). -/
def Obligations.OtherAgentsDoNotDisturbQuietRun : Prop :=
  ∀ (s t : State) (f : Frame) (run : List Event), PoweredThroughout s → QuietBeside f run s.queue →
    (∀ e ∈ run, (∃ n, e = .setRis f n) ∨ ∃ a, e = .access a ∧ a.frame = f) →
    Host.Core.run Sys2Proof.core s.queue.length s = .next t →
    ∃ (u : State) (own all : List Answer),
      Host.Core.run Sys2Proof.core run.length { s with queue := run } = .next u
      ∧ u.answers = own ++ s.answers ∧ t.answers = all ++ s.answers ∧ own.Sublist all
      ∧ u.risSel.get f = t.risSel.get f
end

