-- ==== Sys2Proof/Laws/PerInstr.lean ====
section
/-!
SUPPORT. The family Encoding: what the access that issues an operation is, as syntax (20_memory.md R65, R66).
-/
namespace Sys2Proof.Laws.Encoding

/-- The access of an operation carries data of its own size, can be packed, is naturally aligned (R66) and lies inside
the register of every layout the operation belongs to (R65). -/
def Statement (i : Instr) : Prop :=
  (encode i).WF ∧ (encode i).Packable ∧ (encode i).offset % (encode i).size = 0
    ∧ (encode i).offset + (encode i).size ≤ (if i.needs64 = true then 8 else 4)

theorem rd32lS (q : Requester) : Statement (.rd32lS q) := by
  simp [Statement, encode, Instr.needs64, Access.WF, Access.Packable, Kind.data]
theorem rd32lNS (q : Requester) : Statement (.rd32lNS q) := by
  simp [Statement, encode, Instr.needs64, Access.WF, Access.Packable, Kind.data]
theorem rd32hS (q : Requester) : Statement (.rd32hS q) := by
  simp [Statement, encode, Instr.needs64, Access.WF, Access.Packable, Kind.data]
theorem rd32hNS (q : Requester) : Statement (.rd32hNS q) := by
  simp [Statement, encode, Instr.needs64, Access.WF, Access.Packable, Kind.data]
theorem rd64S (q : Requester) : Statement (.rd64S q) := by
  simp [Statement, encode, Instr.needs64, Access.WF, Access.Packable, Kind.data]
theorem rd64NS (q : Requester) : Statement (.rd64NS q) := by
  simp [Statement, encode, Instr.needs64, Access.WF, Access.Packable, Kind.data]

theorem wr32lS (q : Requester) (d : Word32) : Statement (.wr32lS q d) := by
  have := d.isLt; simp only [Statement, encode, Instr.needs64, Access.WF, Access.Packable, Kind.data]; simp; omega
theorem wr32lNS (q : Requester) (d : Word32) : Statement (.wr32lNS q d) := by
  have := d.isLt; simp only [Statement, encode, Instr.needs64, Access.WF, Access.Packable, Kind.data]; simp; omega
theorem wr32hS (q : Requester) (d : Word32) : Statement (.wr32hS q d) := by
  have := d.isLt; simp only [Statement, encode, Instr.needs64, Access.WF, Access.Packable, Kind.data]; simp; omega
theorem wr32hNS (q : Requester) (d : Word32) : Statement (.wr32hNS q d) := by
  have := d.isLt; simp only [Statement, encode, Instr.needs64, Access.WF, Access.Packable, Kind.data]; simp; omega
theorem wr64S (q : Requester) (d : Word64) : Statement (.wr64S q d) := by
  have := d.isLt; simp only [Statement, encode, Instr.needs64, Access.WF, Access.Packable, Kind.data]; simp; omega
theorem wr64NS (q : Requester) (d : Word64) : Statement (.wr64NS q d) := by
  have := d.isLt; simp only [Statement, encode, Instr.needs64, Access.WF, Access.Packable, Kind.data]; simp; omega

end Sys2Proof.Laws.Encoding
end

