-- ==== Sys2Proof/Tests/Slice0.lean ====
section
/-!
SUPPORT. Own tests. Every expected result is a line of spec/95_test_vectors.md or is worked out by hand from the rule
named beside it.
-/
namespace Sys2Proof.Tests
open Sys2Proof.Machine

/-- Configuration G32 (95_test_vectors.md 2.3). -/
def g32 : Impl :=
  { Config.g64 with
    featMPAMv1p1 := false
    idr :=
      { s := #v[0x00000000_46010007#64, 0, 0, 0, 0, 0, 0, 0, 0, 0, 0, 0, 0, 0, 0, 0]
        ns := #v[0x00000000_4601003F#64, 0, 0, 0, 0, 0, 0, 0, 0, 0, 0, 0, 0, 0, 0, 0] } }

/-- Configuration G0 (95_test_vectors.md 2.5), with the response a requester must not see. -/
def g0 : Impl := { g32 with featMPAM := false, writeResponse := .error }

/-- Configuration G64b (95_test_vectors.md P3). -/
def g64b : Impl :=
  { Config.g64 with
    hasSecureMap := false
    frames := ⟨false, true⟩
    idr :=
      { s := #v[0, 0, 0, 0, 0, 0, 0, 0, 0, 0, 0, 0, 0, 0, 0, 0]
        ns := #v[0x01000021_3201000F#64, 0x01000011_3401000F#64, 0, 0, 0, 0, 0, 0, 0, 0, 0, 0, 0, 0, 0, 0] } }

/-- A powered machine of an implementation with these selectors and this device order. -/
def at' (p : Impl) (s ns : RisNum) (l : List Event := []) : State :=
  { State.resetOf p true ⟨s, ns⟩ with queue := l }

/-- The newest reply of an outcome. -/
def replyOf : Host.Outcome State Fault Refusal → Option Reply
  | .next s => s.answers.head?.map (fun a => a.reply)
  | .fault _ => none
  | .refused _ => none

/-- The refusal of an outcome. -/
def refusalOf : Host.Outcome State Fault Refusal → Option Refusal
  | .next _ => none
  | .fault _ => none
  | .refused r => some r

/-- The replies of a run, oldest first. -/
def repliesOf : Host.Outcome State Fault Refusal → Option (List Reply)
  | .next s => some (s.answers.reverse.map (fun a => a.reply))
  | .fault _ => none
  | .refused _ => none

/-! ### Well-formedness: one ill-formed term for each check (95_test_vectors.md 2.2) -/

theorem test_wfval64_accepts : WFval true 0x0F0000F1_FFFFFFFF#64 ∧ WFval true 0x00000001_10000000#64 := by decide
theorem test_wfval64_extd_esr_alone_is_legal : WFval true 0x00000040_10000000#64 := by decide
theorem test_wfval64_ext_gates_upper_half : ¬WFval true 0x00000001_00000001#64 := by decide
theorem test_wfval64_ris_max_needs_has_ris : ¬WFval true 0x02000000_10000000#64 := by decide
theorem test_wfval64_extd_esr_required : ¬WFval true 0x01000081_10000000#64 := by decide
theorem test_wfval64_reserved_40 : ¬WFval true 0x00000100_10000000#64 := by decide
theorem test_wfval64_no_impl_part_needs_impl_idr : ¬WFval true 0x00000010_10000000#64 := by decide
theorem test_wfval64_no_impl_msmon_needs_impl_idr : ¬WFval true 0x00000020_10000000#64 := by decide
theorem test_wfval64_reserved_63_33 :
    ¬WFval true 0x80000000_10000000#64 ∧ ¬WFval true 0x00000002_10000000#64 := by decide
theorem test_wfval32 : WFval false 0x00000000_EFFFFFFF#64 ∧ ¬WFval false 0x00000000_10000007#64
    ∧ ¬WFval false 0x00000001_00000000#64 := by decide
theorem test_wf_accepts : Config.g64.WF ∧ g32.WF ∧ g0.WF ∧ g64b.WF := by decide
theorem test_wf_instances_agree :
    ¬({ g64b with idr := ⟨g64b.idr.s, g64b.idr.ns.set 1 0x000000A0_30FFFFFF#64⟩ } : Impl).WF := by decide
theorem test_wf_ext_needs_mpam : ¬({ Config.g64 with featMPAM := false } : Impl).WF := by decide
theorem test_wf_some_frame : ¬({ g64b with frames := ⟨false, false⟩ } : Impl).WF := by decide
theorem test_wf_both_maps_both_frames : ¬({ g64b with hasSecureMap := true } : Impl).WF := by decide
theorem test_wf_base_aligned : ¬({ Config.g64 with base := ⟨0, 4⟩ } : Impl).WF := by decide
theorem test_access_wf_data_fits : (⟨0, .write 0xFFFFFFFF, .secure, 0, 4⟩ : Access).WF
    ∧ ¬(⟨0, .write 0x100000000, .secure, 0, 4⟩ : Access).WF := by decide
theorem test_access_packable : (⟨9, .write 5, .secure, 0xFFFF, 255⟩ : Access).Packable
    ∧ ¬(⟨9, .read, .secure, 0x10000, 4⟩ : Access).Packable ∧ ¬(⟨9, .read, .secure, 0, 256⟩ : Access).Packable
    ∧ ¬(⟨9, .write (2 ^ 64), .secure, 0, 8⟩ : Access).Packable := by decide
theorem test_instr_wf : (Instr.rd32lS 0).WF false ∧ ¬(Instr.rd64NS 0).WF false ∧ (Instr.rd64NS 0).WF true := by decide

/-! ### Fields (95_test_vectors.md 2.1) -/

theorem test_fields_of_v4 : Field.all.map (extractField 0x000000A0_30FFFFFF#64)
    = [0, 1, 0, 1, 0, 0, 0, 0, 1, 1, 0, 0, 0, 0, 255, 65535] := by decide
theorem test_fields_of_a : Field.all.map (extractField 0x030000C1_D30300FF#64)
    = [3, 1, 1, 0, 0, 1, 1, 1, 0, 1, 0, 0, 1, 1, 3, 255] := by decide
theorem test_fields_of_vmax : Field.all.map (extractField 0x0F0000F1_FFFFFFFF#64)
    = [15, 1, 1, 1, 1, 1, 1, 1, 1, 1, 1, 1, 1, 1, 255, 65535] := by decide

/-! ### Decoding: each row of R85, each refused form, and packed words written out by hand (log entry 7) -/

theorem test_mnemonics_of_rows :
    [Instr.rd32l .secure 0, .rd32l .nonSecure 0, .rd32h .secure 0, .rd32h .nonSecure 0, .rd64 .secure 0,
      .rd64 .nonSecure 0, .wr32l .secure 0 0, .wr32l .nonSecure 0 0, .wr32h .secure 0 0, .wr32h .nonSecure 0 0,
      .wr64 .secure 0 0, .wr64 .nonSecure 0 0].map Instr.mnemonic
    = ["RD32L.S", "RD32L.NS", "RD32H.S", "RD32H.NS", "RD64.S", "RD64.NS", "WR32L.S", "WR32L.NS", "WR32H.S", "WR32H.NS",
      "WR64.S", "WR64.NS"] := by decide
-- kind 0, frame bit 19, size field 4 xor 4 = 0, requester 2 from bit 96 on
theorem test_decodeWord_rd32lNS : decodeWord 0x0000000200000000000000000000000000080000 ≠ .ok (.rd32lNS 2)
    ∧ decodeWord 0x2_0000000000000000_00080000 = .ok (.rd32lNS 2) := by decide
theorem test_decodeWord_rd32hS : decodeWord 0x2_0000000000000000_00000004 = .ok (.rd32hS 2) := by decide
-- size field 8 xor 4 = 12 in [27:20]
theorem test_decodeWord_rd64S : decodeWord 0x2_0000000000000000_00C00000 = .ok (.rd64S 2) := by decide
-- kind 1 in [18:16], data in [95:32]
theorem test_decodeWord_wr32lNS : decodeWord 0x2_00000000DEADBEEF_00090000 = .ok (.wr32lNS 2 0xDEADBEEF#32) := by decide
theorem test_decodeWord_wr64S :
    decodeWord 0x2_0123456789ABCDEF_00C10000 = .ok (.wr64S 2 0x0123456789ABCDEF#64) := by decide
theorem test_decode_refuses_by_name :
    decode ⟨0, .other .atomic, .secure, 0, 4⟩ = .error .accessKindNotInSource
    ∧ decode ⟨0, .read, .secure, 0, 16⟩ = .error .offsetNotInScope
    ∧ decode ⟨0, .read, .secure, 4, 8⟩ = .error .offsetNotInScope
    ∧ decode ⟨0, .read, .secure, 8, 4⟩ = .error .offsetNotInScope
    ∧ decode ⟨0, .read, .secure, 2, 2⟩ = .error .accessSizeNotInSource
    ∧ decode ⟨0, .write 0, .secure, 0, 1⟩ = .error .accessSizeNotInSource := by decide
theorem test_packed_kinds_refused :
    decodeWord 0x00020000 = .error .accessKindNotInSource ∧ decodeWord 0x00050000 = .error .accessKindNotInSource
    ∧ decodeWord 0x00070000 = .error .accessKindNotInSource := by decide

/-! ### Reads and writes, 32-bit layout (95_test_vectors.md 2.3) -/

theorem test_rd32lNS_g32 : replyOf (exec (.rd32lNS 1) (at' g32 0 0)) = some (.word32 0x4601003F#32) := by decide
theorem test_rd32lS_g32 : replyOf (exec (.rd32lS 1) (at' g32 0 0)) = some (.word32 0x46010007#32) := by decide
theorem test_rd32hNS_g32 : refusalOf (exec (.rd32hNS 1) (at' g32 0 0)) = some .offsetNotInScope := by decide
theorem test_rd64NS_g32 : refusalOf (exec (.rd64NS 1) (at' g32 0 0)) = some .offsetNotInScope := by decide
theorem test_wr32lNS_g32 :
    repliesOf (Host.Core.run Sys2Proof.core 2 (at' g32 0 0
      [.access (encode (.wr32lNS 1 0xFFFFFFFF#32)), .access (encode (.rd32lNS 1))]))
    = some [.response .ignored, .word32 0x4601003F#32] := by decide
theorem test_refused_sizes_g32 :
    refusalOf (deliverAccess ⟨1, .read, .nonSecure, 0, 1⟩ (at' g32 0 0)) = some .accessSizeNotInSource
    ∧ refusalOf (deliverAccess ⟨1, .read, .nonSecure, 2, 2⟩ (at' g32 0 0)) = some .accessSizeNotInSource
    ∧ refusalOf (deliverAccess ⟨1, .read, .nonSecure, 8, 4⟩ (at' g32 0 0)) = some .offsetNotInScope := by decide

/-! ### Reads and writes, 64-bit layout with resource instances (95_test_vectors.md 2.4) -/

theorem test_rd64NS_instances :
    [0#4, 1#4, 2#4, 3#4].map (fun n => replyOf (exec (.rd64NS 1) (at' Config.g64 9 n)))
    = [some (.word64 0x030000C1_D30300FF#64), some (.word64 0x030000C1_D20300FF#64),
       some (.word64 0x030000C1_DC0300FF#64), some (.word64 0x030000C1_D00300FF#64)] := by decide
theorem test_rd32lNS_instance_2 :
    replyOf (exec (.rd32lNS 1) (at' Config.g64 9 2)) = some (.word32 0xDC0300FF#32) := by decide
theorem test_rd32hNS_instance_1 :
    replyOf (exec (.rd32hNS 1) (at' Config.g64 9 1)) = some (.word32 0x030000C1#32) := by decide
theorem test_reads_above_ris_max :
    refusalOf (exec (.rd64NS 1) (at' Config.g64 9 4)) = some .risOutOfRange
    ∧ refusalOf (exec (.rd32lNS 1) (at' Config.g64 9 15)) = some .risOutOfRange
    ∧ refusalOf (exec (.rd32hNS 1) (at' Config.g64 9 4)) = some .risOutOfRange := by decide
theorem test_rd64S_ignores_selector :
    replyOf (exec (.rd64S 1) (at' Config.g64 9 0)) = some (.word64 0x00000000_4200001F#64) := by decide
theorem test_rd32hS_ext_clear : replyOf (exec (.rd32hS 1) (at' Config.g64 9 0)) = some (.word32 0#32) := by decide
theorem test_wr64NS_then_read :
    repliesOf (Host.Core.run Sys2Proof.core 2 (at' Config.g64 0 2
      [.access (encode (.wr64NS 1 0xFFFFFFFFFFFFFFFF#64)), .access (encode (.rd64NS 1))]))
    = some [.response .ignored, .word64 0x030000C1_DC0300FF#64] := by decide
theorem test_wr32hNS_error_response :
    replyOf (exec (.wr32hNS 1 0#32) (at' { Config.g64 with writeResponse := .error } 0 2))
    = some (.response .error) := by decide
theorem test_wr32hS : replyOf (exec (.wr32hS 1 7#32) (at' Config.g64 0 9)) = some (.response .ignored) := by decide
theorem test_wr32lS : replyOf (exec (.wr32lS 1 7#32) (at' Config.g64 0 9)) = some (.response .ignored) := by decide
theorem test_wr64S_narrow : refusalOf (exec (.wr64S 1 7#64) (at' g32 0 0)) = some .offsetNotInScope
    ∧ replyOf (exec (.wr64S 1 7#64) (at' Config.g64 0 9)) = some (.response .ignored) := by decide
theorem test_refused_for_first_reason :
    refusalOf (deliverAccess ⟨1, .other .atomic, .nonSecure, 0, 4⟩ (at' Config.g64 0 0)) = some .accessKindNotInSource
    ∧ refusalOf (deliverAccess ⟨1, .read, .secure, 0, 4⟩ (at' g64b 0 0)) = some .noSuchFrame
    ∧ refusalOf (deliverAccess ⟨1, .read, .nonSecure, 0, 4⟩ { at' Config.g64 0 0 with powered := false })
        = some .unpowered
    ∧ refusalOf (deliverAccess ⟨1, .read, .secure, 0, 4⟩ (at' { Config.g64 with barred := [(1, .secure)] } 0 0))
        = some .frameNotReachable
    ∧ refusalOf (deliverAccess ⟨1, .other .exclusive, .secure, 99, 3⟩ { at' g64b 0 0 with powered := false })
        = some .accessKindNotInSource
    ∧ refusalOf (deliverAccess ⟨1, .read, .nonSecure, 4, 8⟩ (at' Config.g64 0 0)) = some .offsetNotInScope
    ∧ refusalOf (deliverAccess ⟨1, .read, .nonSecure, 2, 4⟩ (at' Config.g64 0 0)) = some .accessSizeNotInSource := by
  decide

/-! ### Without FEAT_MPAM (95_test_vectors.md 2.5) -/

theorem test_rd32lNS_g0 : replyOf (exec (.rd32lNS 1) (at' g0 0 0)) = some (.word32 0#32) := by decide
theorem test_wr32lNS_g0 : replyOf (exec (.wr32lNS 1 5#32) (at' g0 0 0)) = some (.response .ignored) := by decide

/-! ### Events -/

/-- P3 of 95_test_vectors.md: the torn pair. -/
theorem test_torn_pair :
    repliesOf (Host.Core.run Sys2Proof.core 3 (at' g64b 0 0
      [.access (encode (.rd32lNS 1)), .setRis .nonSecure 1, .access (encode (.rd32hNS 1))]))
    = some [.word32 0x3201000F#32, .word32 0x01000011#32] := by decide
theorem test_pairValue : pairValue 0x01000011#32 0x3201000F#32 = 0x01000011_3201000F#64 := by decide
theorem test_memory_access_routed :
    replyOf (step (at' { Config.g64 with base := ⟨0x1000, 0x2000⟩ } 0 0
      [.memory ⟨1, .read, .nonSecure, 0x2004, 4⟩])) = some (.word32 0x030000C1#32)
    ∧ refusalOf (step (at' { Config.g64 with base := ⟨0x1000, 0x2000⟩ } 0 0
      [.memory ⟨1, .read, .nonSecure, 0x1FFF, 4⟩])) = some .addressOutsideFrame := by decide
theorem test_power_change :
    step (at' Config.g64 3 5 [.power false])
    = .next { at' Config.g64 3 5 with
        powered := false, risSel := ⟨Config.freeRisSel 0, Config.freeRisSel 1⟩, draws := 2 } := rfl
theorem test_table_words_run_first_after_reset :
    replyOf (step (State.reset.withFetchWord 16 0x0000)) = some (.word32 0x4200001F#32)
    ∧ replyOf (step (State.reset.withFetchWord 16 0x0004)) = some (.word32 0#32) := by decide

/-! ### What a value means (95_test_vectors.md 2.6) -/

theorem test_v4_means : knownIs64 0x000000A0_30FFFFFF#64 = some true
    ∧ errorHandling 0x000000A0_30FFFFFF#64 = some true ∧ esrIs64Bits 0x000000A0_30FFFFFF#64 = some false
    ∧ implMonitors 0x000000A0_30FFFFFF#64 = some false ∧ implControls 0x000000A0_30FFFFFF#64 = some true
    ∧ resourceInstances 0x000000A0_30FFFFFF#64 = some 1 := by decide
theorem test_a_means : resourceInstances 0x030000C1_D30300FF#64 = some 4
    ∧ esrIs64Bits 0x030000C1_D30300FF#64 = some true ∧ implControls 0x030000C1_D30300FF#64 = none
    ∧ registerExists 0x030000C1_D30300FF#64 .mpamfCporIdr = some true
    ∧ registerExists 0x030000C1_D30300FF#64 .mpamfPriIdr = some false := by decide
theorem test_v1_means : knownIs64 0x4601003F#64 = none ∧ registerExists 0x4601003F#64 .mpamfEsr = none
    ∧ partidSupported 0x4601003F#64 63 = true ∧ partidSupported 0x4601003F#64 64 = false
    ∧ pmgSupported 0x4601003F#64 1 = true ∧ pmgSupported 0x4601003F#64 2 = false := by decide

/-! ### Witnesses: a concrete state for the hypotheses of each statement, clause by clause -/

theorem accepts_g64 (s ns : RisNum) (f : Frame) (q : Requester) (l : List Event) : Accepts (at' Config.g64 s ns l) q f :=
  ⟨rfl, by cases f <;> rfl, List.not_mem_nil⟩
theorem accepts_g32 (s ns : RisNum) (f : Frame) (q : Requester) : Accepts (at' g32 s ns) q f :=
  ⟨rfl, by cases f <;> rfl, List.not_mem_nil⟩
theorem accepts_g0 (s ns : RisNum) (f : Frame) (q : Requester) : Accepts (at' g0 s ns) q f :=
  ⟨rfl, by cases f <;> rfl, List.not_mem_nil⟩

theorem test_witness_Rd32lReturnsLowHalf :
    (Accepts (at' Config.g64 0 3) 1 .nonSecure ∧ (at' Config.g64 0 3).impl.WF
      ∧ idrValue (at' Config.g64 0 3) .nonSecure = some 0x030000C1_D00300FF#64 ∧ regWidth Config.g64 = 64
      ∧ hasRis (Config.g64.idrOf .nonSecure 0#4) = true
      ∧ idrValue (setRis .nonSecure 0 (at' Config.g64 0 3)) .nonSecure = some 0x030000C1_D30300FF#64)
    ∧ (Accepts (at' Config.g64 0 4) 1 .nonSecure ∧ idrValue (at' Config.g64 0 4) .nonSecure = none)
    ∧ (Accepts (at' g0 0 0) 1 .secure ∧ (at' g0 0 0).impl.featMPAM = false)
    ∧ (Accepts (at' g32 0 0) 1 .secure ∧ g32.WF ∧ idrValue (at' g32 0 0) .secure = some 0x46010007#64
      ∧ regWidth g32 = 32)
    ∧ (∃ t, exec (.rd32l .secure 1) (at' g32 0 0) = .next t
      ∧ t.answers = ⟨.rd32l .secure 1, .word32 0x46010007#32⟩ :: (at' g32 0 0).answers) :=
  ⟨⟨accepts_g64 .., by decide⟩, ⟨accepts_g64 .., by decide⟩, ⟨accepts_g0 .., rfl⟩, ⟨accepts_g32 .., by decide⟩,
    _, rfl, rfl⟩

theorem test_witness_Rd32hReturnsHighHalf :
    (Accepts (at' g32 0 0) 1 .secure ∧ regWidth g32 = 32)
    ∧ (Accepts (at' g0 0 0) 1 .secure ∧ g0.WF ∧ g0.featMPAM = false)
    ∧ (Accepts (at' Config.g64 0 3) 1 .nonSecure ∧ regWidth Config.g64 = 64 ∧ Config.g64.WF
      ∧ idrValue (at' Config.g64 0 3) .nonSecure = some 0x030000C1_D00300FF#64
      ∧ hasRis (Config.g64.idrOf .nonSecure 0#4) = true)
    ∧ idrValue (at' Config.g64 0 4) .nonSecure = none
    ∧ (Accepts (at' Config.g64 0 3) 1 .secure ∧ ext (Config.g64.idrOf .secure 0#4) = false
      ∧ idrValue (at' Config.g64 0 3) .secure = some 0x4200001F#64) :=
  ⟨⟨accepts_g32 .., by decide⟩, ⟨accepts_g0 .., by decide⟩, ⟨accepts_g64 .., by decide⟩, by decide,
    accepts_g64 .., by decide⟩

theorem test_witness_Rd64ReturnsWholeRegister :
    (Accepts (at' g32 0 0) 1 .secure ∧ regWidth g32 = 32)
    ∧ (Accepts (at' Config.g64 0 3) 1 .nonSecure ∧ regWidth Config.g64 = 64 ∧ Config.g64.WF
      ∧ idrValue (at' Config.g64 0 3) .nonSecure = some 0x030000C1_D00300FF#64
      ∧ hasRis (Config.g64.idrOf .nonSecure 0#4) = true)
    ∧ (Accepts (at' Config.g64 0 4) 1 .nonSecure ∧ idrValue (at' Config.g64 0 4) .nonSecure = none)
    ∧ (idrValue (at' Config.g64 0 4) .secure = some 0x4200001F#64 ∧ (0x4200001F#64).getLsbD 28 = false) :=
  ⟨⟨accepts_g32 .., by decide⟩, ⟨accepts_g64 .., by decide⟩, ⟨accepts_g64 .., by decide⟩, by decide⟩

theorem test_witness_WritesAreDiscarded :
    (Accepts (at' Config.g64 0 4) 1 .nonSecure ∧ regWidth Config.g64 = 64 ∧ Config.g64.featMPAM = true)
    ∧ (Accepts (at' g0 0 0) 1 .secure ∧ g0.featMPAM = false) :=
  ⟨⟨accepts_g64 .., by decide⟩, accepts_g0 .., rfl⟩

theorem test_witness_IdrValueFollowsSelection :
    g0.featMPAM = false
    ∧ (Config.g64.featMPAM = true ∧ (Config.g64.idrOf .secure 0#4).getLsbD 32 = false)
    ∧ ((Config.g64.idrOf .nonSecure 0#4).getLsbD 32 = true
      ∧ (at' Config.g64 0 3).risSel.get .nonSecure ≤ (Config.g64.idrOf .nonSecure 0#4).extractLsb' 56 4)
    ∧ (Config.g64.idrOf .nonSecure 0#4).extractLsb' 56 4 < (at' Config.g64 0 4).risSel.get .nonSecure := by decide

theorem test_witness_ReadsRefuseSelectorAboveRisMax :
    Accepts (at' Config.g64 0 4) 1 .nonSecure ∧ Config.g64.featMPAM = true ∧ regWidth Config.g64 = 64
    ∧ hasRis (Config.g64.idrOf .nonSecure 0#4) = true
    ∧ risMax (Config.g64.idrOf .nonSecure 0#4) < (at' Config.g64 0 4).risSel.get .nonSecure :=
  ⟨accepts_g64 .., by decide⟩

theorem test_witness_WithoutMpamLocationIsRes0 :
    g0.WF ∧ g0.featMPAM = false ∧ Accepts (at' g0 0 0) 1 .secure
    ∧ (Instr.wr64S 1 0#64).needs64 = true ∧ (Instr.wr64S 1 0#64).frame = .secure ∧ (Instr.wr64S 1 0#64).requester = 1 :=
  ⟨by decide, rfl, accepts_g0 .., rfl, rfl, rfl⟩

/-- The clauses of `AccessRefusedForFirstReason`, at the values where the offset clauses meet. -/
theorem test_witness_AccessRefusedForFirstReason :
    (at' Config.g64 0 0).powered = true ∧ ({ at' Config.g64 0 0 with powered := false }).powered = false
    ∧ g64b.frames.get .secure = false
    ∧ ((1, Frame.secure) ∈ ({ Config.g64 with barred := [(1, .secure)] } : Impl).barred)
    ∧ Accepts (at' Config.g64 0 0) 1 .secure
    ∧ (regWidth Config.g64 / 8 ≤ 8) ∧ (regWidth Config.g64 / 8 < 4 + 5) ∧ (0 < regWidth Config.g64 / 8)
    ∧ (4 + 4 ≤ regWidth Config.g64 / 8) ∧ ((4, 4) ∈ [(0x0000, 4), (0x0004, 4), (0x0000, 8)])
    ∧ ((4, 3) ∉ [(0x0000, 4), (0x0004, 4), (0x0000, 8)]) :=
  ⟨rfl, rfl, rfl, by decide, accepts_g64 .., by decide⟩

theorem test_witness_StepRunsDecodedOperation :
    ((at' Config.g64 0 0 [.access (encode (.rd64S 1))]).queue = .access (encode (.rd64S 1)) :: []
      ∧ decode (encode (.rd64S 1)) = .ok (.rd64S 1))
    ∧ ((at' Config.g64 0 0 [.access ⟨1, .read, .secure, 0x0002, 4⟩]).queue
        = .access ⟨1, .read, .secure, 0x0002, 4⟩ :: []
      ∧ decode ⟨1, .read, .secure, 0x0002, 4⟩ = .error .accessSizeNotInSource)
    ∧ decodeTableWord 16 0x0004 = some (.rd32hS 0) := by decide

/-- The first and the last address of the page, and the first past it. -/
theorem test_witness_MemoryAccessReachesFrameOffset :
    (at' Config.g64 0 0 [.memory ⟨1, .read, .secure, 0xFFFF, 4⟩]).queue = .memory ⟨1, .read, .secure, 0xFFFF, 4⟩ :: []
    ∧ Config.g64.base.get .secure ≤ 0 ∧ 0 < Config.g64.base.get .secure + Config.g64.frameSize
    ∧ 0xFFFF < Config.g64.base.get .secure + Config.g64.frameSize
    ∧ Config.g64.base.get .secure + Config.g64.frameSize ≤ 0x10000 := by decide

theorem test_witness_SetRisChangesOnlyItsSelector :
    (at' Config.g64 0 0 [.setRis .secure 15]).queue = .setRis .secure 15 :: []
    ∧ (at' Config.g64 0 0 [.setRis .secure 15]).powered = true := by decide

theorem test_witness_PowerChangeFreesSelectors :
    (at' Config.g64 0 0 [.power true]).queue = .power true :: [] ∧ true = (at' Config.g64 0 0 [.power true]).powered
    ∧ (at' Config.g64 0 0 [.power false]).queue = .power false :: []
    ∧ false ≠ (at' Config.g64 0 0 [.power false]).powered := by decide

theorem test_witness_IdleStepChangesNothing : State.reset.queue = [] := by decide

theorem test_witness_UnpoweredRefusesEveryOperation :
    (State.resetOf Config.g64 false ⟨0, 0⟩).powered = false := by decide

/-- Completing operations and completing steps, for the statements whose hypothesis is that one completed. -/
theorem test_witness_ImplementationNeverChanges :
    (∃ t, exec (.wr64NS 1 7#64) State.reset = .next t)
    ∧ (∃ t, step (at' Config.g64 0 0 [.setRis .secure 3]) = .next t)
    ∧ ∃ t, step (at' Config.g64 0 0 [.power false]) = .next t :=
  ⟨⟨_, rfl⟩, ⟨_, rfl⟩, _, rfl⟩

theorem test_witness_OnlyEnvironmentChangesState :
    (∃ t, step (at' Config.g64 0 0 [.setRis .secure 3]) = .next t
      ∧ t.risSel.get .secure ≠ (at' Config.g64 0 0).risSel.get .secure)
    ∧ ∃ t, step (at' Config.g64 0 0 [.power false]) = .next t ∧ t.powered ≠ (at' Config.g64 0 0).powered
      ∧ t.draws ≠ (at' Config.g64 0 0).draws :=
  ⟨⟨_, rfl, by decide⟩, _, rfl, by decide, by decide⟩

theorem test_witness_OperationsOnlyAnswer :
    (∃ t, exec (.rd64NS 1) State.reset = .next t) ∧ ∃ t, exec (.wr32lS 1 9#32) State.reset = .next t :=
  ⟨⟨_, rfl⟩, _, rfl⟩

theorem test_witness_OnlyTableAccessesComplete :
    (at' Config.g64 0 0 [.access ⟨1, .read, .secure, 4, 4⟩]).queue = .access ⟨1, .read, .secure, 4, 4⟩ :: []
    ∧ ∃ t, step (at' Config.g64 0 0 [.access ⟨1, .read, .secure, 4, 4⟩]) = .next t :=
  ⟨rfl, _, rfl⟩

theorem test_witness_DecodedAccessIsTheEncodedOne :
    decode ⟨7, .write 0xFFFFFFFF, .nonSecure, 4, 4⟩ = .ok (.wr32hNS 7 0xFFFFFFFF#32)
    ∧ (⟨7, .write 0xFFFFFFFF, .nonSecure, 4, 4⟩ : Access).WF := by decide

theorem test_witness_PackedFormLosesNothing :
    (⟨7, .write (2 ^ 64 - 1), .nonSecure, 0xFFFF, 255⟩ : Access).Packable := by decide

theorem test_witness_StepKeepsAnswersTruthful :
    Inv (at' Config.g64 0 0 [.access (encode (.rd64NS 1))])
    ∧ ∃ t, step (at' Config.g64 0 0 [.access (encode (.rd64NS 1))]) = .next t :=
  ⟨⟨by decide, fun _ h => absurd h List.not_mem_nil⟩, _, rfl⟩

/-- An answer to a requester that cannot reach the frame is not truthful. -/
theorem test_untruthful_requester :
    ¬Truthful { Config.g64 with barred := [(1, .secure)] } ⟨.wr32lS 1 0#32, .response .ignored⟩ :=
  fun h => h.2.1 (List.mem_cons_self ..)

/-- An answer that is not truthful: the invariant is no tautology. -/
theorem test_untruthful_answer : ¬Truthful Config.g64 ⟨.rd32hS 1, .word32 1#32⟩ := by
  rintro ⟨-, -, -, v, ⟨r, hr, rfl⟩, hv⟩
  revert r
  decide

theorem test_witness_ResetIsTruthful : Config.g64.WF ∧ g64b.WF := by decide

theorem test_witness_FirstReadAfterReset :
    Config.g64.WF ∧ Config.g64.haveMPAMExt = true ∧ Config.g64.frames.get .secure = true
    ∧ Config.g64.frames.get .nonSecure = true ∧ ((1, Frame.secure) ∉ Config.g64.barred)
    ∧ ((1, Frame.nonSecure) ∉ Config.g64.barred)
    ∧ hasRis (Config.g64.idrOf .secure 0#4) = false ∧ hasRis (Config.g64.idrOf .nonSecure 0#4) = true
    ∧ (3 : RisNum) ≤ risMax (Config.g64.idrOf .nonSecure 0#4)
    ∧ risMax (Config.g64.idrOf .nonSecure 0#4) < (4 : RisNum) := by decide

/-- For `ReservedBitsReadZero`, `AbsentFieldsReadZero` and `ShownValuesMeetFieldConstraints`, in both layouts. -/
theorem test_witness_ReservedBitsReadZero :
    Config.g64.WF ∧ Config.g64.frames.get .nonSecure = true ∧ regWidth Config.g64 = 64
    ∧ idrValue (at' Config.g64 0 2) .nonSecure = some 0x030000C1_DC0300FF#64
    ∧ g32.WF ∧ g32.frames.get .secure = true ∧ regWidth g32 = 32
    ∧ idrValue (at' g32 0 0) .secure = some 0x46010007#64 := by decide
theorem test_witness_AbsentFieldsReadZero :
    Config.g64.WF ∧ Config.g64.frames.get .secure = true
    ∧ idrValue (at' Config.g64 0 2) .secure = some 0x4200001F#64
    ∧ fieldPresent Config.g64.haveMPAMExt 0x4200001F#64 .hasEsr = false := by decide
theorem test_witness_ShownValuesMeetFieldConstraints :
    idrValue (at' Config.g64 0 2) .nonSecure = some 0x030000C1_DC0300FF#64
    ∧ (0x030000C1_DC0300FF#64).getLsbD 32 = true ∧ (0x030000C1_DC0300FF#64).getLsbD 39 = true
    ∧ (0x030000C1_DC0300FF#64).getLsbD 29 = false
    ∧ idrValue (at' Config.g64 0 2) .secure = some 0x4200001F#64 ∧ (0x4200001F#64).getLsbD 32 = false := by decide

theorem test_witness_RisIndependentBitsAgree :
    g64b.WF ∧ g64b.featMPAM = true ∧ g64b.frames.get .nonSecure = true
    ∧ (at' g64b 0 1).impl = (at' g64b 0 0).impl
    ∧ idrValue (at' g64b 0 0) .nonSecure = some 0x01000021_3201000F#64
    ∧ idrValue (at' g64b 0 1) .nonSecure = some 0x01000011_3401000F#64
    ∧ hasRis (Config.g64.idrOf .secure 0#4) = false := by decide

theorem test_witness_SelectorMattersOnlyToItsFrame :
    (Instr.rd64NS 1).frame ≠ .secure ∧ (Instr.wr64NS 1 0#64).isRead = false
    ∧ hasRis ((at' Config.g64 0 2).impl.idrOf .secure 0#4) = false ∧ g0.featMPAM = false
    ∧ (∃ t, exec (.rd64NS 1) (at' Config.g64 0 2) = .next t)
    ∧ exec (.rd64NS 1) (at' Config.g64 0 4) = .refused .risOutOfRange :=
  ⟨by decide, rfl, by decide, rfl, ⟨_, rfl⟩, rfl⟩

theorem test_witness_AccessesDoNotDisturbEachOther :
    (∃ t, exec (.wr64NS 1 5#64) (at' Config.g64 0 4) = .next t)
    ∧ exec (.rd64NS 1) (at' Config.g64 0 4) = .refused .risOutOfRange
    ∧ ∃ u, exec (.rd64S 1) (at' Config.g64 0 4) = .next u :=
  ⟨⟨_, rfl⟩, rfl, _, rfl⟩

theorem test_witness_QuietRunKeepsValue :
    (∃ t, Host.Core.run Sys2Proof.core 2 (at' Config.g64 0 2
      [.setRis .secure 7, .access (encode (.rd64NS 1)), .access (encode (.wr64S 1 0#64))]) = .next t)
    ∧ ∀ e ∈ (at' Config.g64 0 2
      [.setRis .secure 7, .access (encode (.rd64NS 1)), .access (encode (.wr64S 1 0#64))]).queue, Quiet .nonSecure e := by
  refine ⟨⟨_, rfl⟩, ?_⟩
  intro e he
  simp only [at', List.mem_cons, List.not_mem_nil, or_false] at he
  rcases he with rfl | rfl | rfl
  · exact Frame.noConfusion
  · trivial
  · trivial

theorem test_witness_PairEqualsWholeRead :
    Accepts (at' Config.g64 0 2 (rdpair .nonSecure 1 ++ [])) 1 .nonSecure ∧ regWidth Config.g64 = 64
    ∧ idrValue (at' Config.g64 0 2) .nonSecure = some 0x030000C1_DC0300FF#64
    ∧ (at' Config.g64 0 2 (rdpair .nonSecure 1 ++ [])).queue = rdpair .nonSecure 1 ++ []
    ∧ (at' Config.g64 0 2 (rdpairHighFirst .nonSecure 1 ++ [])).queue = rdpairHighFirst .nonSecure 1 ++ [] :=
  ⟨accepts_g64 .., by decide⟩

theorem test_witness_TornPairMixesTwoInstances :
    g64b.WF ∧ Accepts (at' g64b 0 0) 1 .nonSecure ∧ regWidth g64b = 64 ∧ hasRis (g64b.idrOf .nonSecure 0#4) = true
    ∧ (at' g64b 0 0).risSel.get .nonSecure ≤ risMax (g64b.idrOf .nonSecure 0#4)
    ∧ (1 : RisNum) ≤ risMax (g64b.idrOf .nonSecure 0#4)
    ∧ (at' g64b 0 0 [.access (encode (.rd32l .nonSecure 1)), .setRis .nonSecure 1,
        .access (encode (.rd32h .nonSecure 1))]).queue
      = .access (encode (.rd32l .nonSecure 1)) :: .setRis .nonSecure 1 :: .access (encode (.rd32h .nonSecure 1)) :: [] :=
  ⟨by decide, ⟨rfl, rfl, List.not_mem_nil⟩, by decide⟩

theorem test_witness_SelectThenReadDiscoversInstance :
    Config.g64.WF ∧ Accepts (at' Config.g64 0 9) 1 .nonSecure ∧ regWidth Config.g64 = 64
    ∧ hasRis (Config.g64.idrOf .nonSecure 0#4) = true ∧ (3 : RisNum) ≤ risMax (Config.g64.idrOf .nonSecure 0#4)
    ∧ (at' Config.g64 0 9 [.setRis .nonSecure 3, .access (encode (.rd64 .nonSecure 1))]).queue
      = .setRis .nonSecure 3 :: .access (encode (.rd64 .nonSecure 1)) :: [] :=
  ⟨by decide, accepts_g64 .., by decide⟩

/-- Bytes 0, 7 and, past the end, 8 of the 64-bit register; 3 and 4 of the 32-bit one. -/
theorem test_witness_RegisterIsLittleEndian :
    idrValue (at' Config.g64 0 2) .nonSecure = some 0x030000C1_DC0300FF#64
    ∧ readByte (at' Config.g64 0 2) .nonSecure 0 = some 0xFF#8 ∧ readByte (at' Config.g64 0 2) .nonSecure 7 = some 3#8
    ∧ readByte (at' Config.g64 0 2) .nonSecure 8 = none
    ∧ readByte (at' g32 0 0) .secure 3 = some 0x46#8 ∧ readByte (at' g32 0 0) .secure 4 = none := by decide

theorem test_witness_ExtMeansHighHalfReadable :
    Config.g64.WF ∧ (∃ t, exec (.rd32l .nonSecure 1) State.reset = .next t
      ∧ t.answers = ⟨.rd32l .nonSecure 1, .word32 0xD30300FF#32⟩ :: State.reset.answers)
    ∧ (0xD30300FF#32).getLsbD 28 = true :=
  ⟨by decide, ⟨_, rfl, rfl⟩, by decide⟩

theorem test_witness_AbsentFieldsSayNothing :
    (0x4200001F#64).getLsbD 28 = false ∧ (0x4200001F#64).getLsbD 29 = false
    ∧ (0x000000A0_30FFFFFF#64).getLsbD 28 = true ∧ (0x000000A0_30FFFFFF#64).getLsbD 29 = true
    ∧ (0x000000A0_30FFFFFF#64).getLsbD 39 = true ∧ (0x000000A0_30FFFFFF#64).getLsbD 32 = false
    ∧ (0x030000C1_DC0300FF#64).getLsbD 28 = true ∧ (0x030000C1_DC0300FF#64).getLsbD 32 = true := by decide

theorem test_witness_BothPagesReadable :
    Config.g64.WF ∧ Config.g64.hasSecureMap = true ∧ State.reset.powered = true
    ∧ ((1, Frame.secure) ∉ Config.g64.barred) ∧ ((1, Frame.nonSecure) ∉ Config.g64.barred)
    ∧ Selected State.reset .secure ∧ Selected State.reset .nonSecure :=
  ⟨by decide, rfl, rfl, List.not_mem_nil, List.not_mem_nil, fun _ => by decide, fun _ => by decide⟩

/-- Both outcomes, on both sides of each boundary: the last selector with an instance and the first without, the last
address of the page's register and the first past the page; and the two environment steps. -/
theorem test_witness_StepCompletesExactlyWhen :
    Completes (at' Config.g64 0 3 []) (encode (.rd64NS 1)) ∧ ¬Completes (at' Config.g64 0 4 []) (encode (.rd64NS 1))
    ∧ Brings Config.g64 (.memory ⟨1, .read, .secure, 0x0004, 4⟩) ⟨1, .read, .secure, 0x0004, 4⟩
    ∧ (∃ t, step (at' Config.g64 0 3 [.memory ⟨1, .read, .secure, 0x0004, 4⟩]) = .next t)
    ∧ step (at' Config.g64 0 3 [.memory ⟨1, .read, .secure, 0x10000, 4⟩]) = .refused .addressOutsideFrame
    ∧ (∃ t, step (at' Config.g64 0 0 [.setRis .nonSecure 15]) = .next t)
    ∧ ∃ t, step (at' Config.g64 0 0 [.power false]) = .next t := by
  refine ⟨⟨.inl ⟨rfl, _, rfl⟩, accepts_g64 .., .inr ⟨rfl, .inr ⟨rfl, rfl⟩⟩⟩, ?_,
    .inr ⟨_, rfl, by decide, by decide, rfl⟩, ⟨_, rfl⟩, rfl, ⟨_, rfl⟩, _, rfl⟩
  rintro ⟨⟨-, v, hv⟩ | ⟨d, hd⟩, -⟩
  · cases hv
  · cases hd

/-- One step for each of the eight reasons. -/
theorem test_witness_RefusalsAreNamed :
    step (at' Config.g64 0 0 [.access ⟨1, .other .atomic, .secure, 0, 4⟩]) = .refused .accessKindNotInSource
    ∧ step { at' Config.g64 0 0 [.access (encode (.rd64NS 1))] with powered := false } = .refused .unpowered
    ∧ step (at' g64b 0 0 [.access (encode (.rd64S 1))]) = .refused .noSuchFrame
    ∧ step (at' { Config.g64 with barred := [(1, .secure)] } 0 0 [.access (encode (.rd64S 1))])
      = .refused .frameNotReachable
    ∧ step (at' Config.g64 0 0 [.access ⟨1, .read, .secure, 5, 4⟩]) = .refused .offsetNotInScope
    ∧ step (at' Config.g64 0 0 [.access ⟨1, .read, .secure, 3, 4⟩]) = .refused .accessSizeNotInSource
    ∧ step (at' Config.g64 0 4 [.memory ⟨1, .read, .nonSecure, 0, 8⟩]) = .refused .risOutOfRange
    ∧ step (at' Config.g64 0 4 [.memory ⟨1, .read, .secure, 0x10000, 4⟩]) = .refused .addressOutsideFrame :=
  ⟨rfl, rfl, rfl, rfl, rfl, rfl, rfl, rfl⟩

theorem test_witness_StepTakesOneEvent :
    (∃ t, step (at' Config.g64 0 2 [.access (encode (.rd64NS 1)), .power true]) = .next t) ∧
    ∃ t, step (at' Config.g64 0 2 [.power true]) = .next t := ⟨⟨_, rfl⟩, _, rfl⟩

/-- The start of P2 (95_test_vectors.md) with a selector that names no instance, so that the run must select first. -/
def selectThenRead : List Event :=
  [.setRis .nonSecure 3, .access (encode (.rd64NS 1)), .memory ⟨1, .read, .secure, 0, 8⟩, .power true]

theorem launch_g64 (s ns : RisNum) (run : List Event) (hp : Event.power false ∉ run)
    (hs : ∀ f, Selected (at' Config.g64 s ns run) f ∨ SelectsBeforeRead Config.g64 f run) :
    Launch (at' Config.g64 s ns run) run :=
  ⟨⟨rfl, hp⟩, (by decide : Config.g64.WF), ⟨fun _ _ a _ => ⟨by cases a.frame <;> rfl, List.not_mem_nil⟩, fun f _ _ => by cases f <;> rfl⟩,
    hs⟩

theorem namesInstances_selectThenRead : NamesInstances Config.g64 selectThenRead := by
  intro f n h _
  simp only [selectThenRead, List.mem_cons, reduceCtorEq, or_false, List.not_mem_nil] at h
  cases h
  decide

/-- (P-sel) by its second arm, in a start state where the first fails; and (P-sel) fails for the read alone. -/
theorem test_witness_StepKeepsLaunchPremises :
    Launch (at' Config.g64 9 4 selectThenRead) selectThenRead ∧ NamesInstances Config.g64 selectThenRead
    ∧ ¬Selected (at' Config.g64 9 4 selectThenRead) .nonSecure
    ∧ (∃ t, step (at' Config.g64 9 4 selectThenRead) = .next t)
    ∧ ¬SelectsBeforeRead Config.g64 .nonSecure [.access (encode (.rd64NS 1))] := by
  refine ⟨launch_g64 _ _ _ (by decide) fun f => ?_, namesInstances_selectThenRead, ?_, ⟨_, rfl⟩, ?_⟩
  · cases f
    · exact .inl fun h => absurd h (by decide)
    · exact .inr (.inl ⟨3, rfl, by decide⟩)
  · exact fun h => absurd (h (by decide)) (by decide)
  · rintro (⟨n, h, -⟩ | h)
    · cases h
    · exact h.1 _ (.inl rfl) rfl rfl

/-- The same run, each of its events of an admitted kind; both arms of (P-sel). -/
theorem test_witness_LaunchedRunCompletes :
    Selected (at' Config.g64 9 3 selectThenRead) .nonSecure
    ∧ SelectsBeforeRead Config.g64 .nonSecure selectThenRead
    ∧ Brings Config.g64 (.access (encode (.rd64NS 1))) (encode (.rd64NS 1))
    ∧ Brings Config.g64 (.memory ⟨1, .read, .secure, 0, 8⟩) (encode (.rd64S 1))
    ∧ decode (encode (.rd64NS 1)) = .ok (.rd64NS 1) ∧ (Instr.rd64NS 1).WF Config.g64.haveMPAMExt
    ∧ decode (encode (.rd64S 1)) = .ok (.rd64S 1) ∧ (Instr.rd64S 1).WF Config.g64.haveMPAMExt :=
  ⟨fun _ => by decide, .inl ⟨3, rfl, by decide⟩, .inl rfl, .inr ⟨_, rfl, by decide, by decide, rfl⟩, rfl, by decide, rfl,
    by decide⟩

/-- Requester 1 selects instance 1 and reads it; between, another agent selects in the other frame and reads both. -/
def besideSelectThenRead : List Event :=
  [.setRis .nonSecure 1, .setRis .secure 5, .access (encode (.rd64NS 2)), .access (encode (.rd64S 2)), .power true,
    .access (encode (.rd64NS 1))]

theorem test_witness_OtherAgentsDoNotDisturbQuietRun :
    PoweredThroughout (at' Config.g64 0 0 besideSelectThenRead)
    ∧ QuietBeside .nonSecure [.setRis .nonSecure 1, .access (encode (.rd64NS 1))] besideSelectThenRead
    ∧ (∃ t, Host.Core.run Sys2Proof.core 6 (at' Config.g64 0 0 besideSelectThenRead) = .next t)
    ∧ ¬QuietBeside .nonSecure [.access (encode (.rd64NS 1))] [.setRis .nonSecure 1, .access (encode (.rd64NS 1))] := by
  refine ⟨⟨rfl, by decide⟩, .inl ⟨_, rfl, .inr ⟨nofun, .inr ⟨nofun, .inr ⟨nofun, .inr ⟨nofun, .inl ⟨_, rfl, rfl⟩⟩⟩⟩⟩⟩,
    ⟨_, rfl⟩, ?_⟩
  rintro (⟨_, h, -⟩ | ⟨h, -⟩)
  · cases h
  · exact h 1 rfl

end Sys2Proof.Tests
end

/-!
Proofs of the statements about the state (10_state.md): what the register shows, who may change the state, and the
invariant that every answer ever given is one this implementation may give.
-/
namespace Sys2Proof.Proofs
open Sys2Proof Sys2Proof.Machine

section Values

/-- R22: the location reads as 0 without `FEAT_MPAM`. -/
theorem idrValue_of_featMPAM_false {s : State} (f : Frame) (h : s.impl.featMPAM = false) :
    idrValue s f = some 0#64 := by
  simp [idrValue, h]

theorem wfval_zero (b : Bool) : WFval b 0#64 := by
  cases b <;> decide

/-- R43 to R47: whatever an existing frame of a well-formed implementation shows is well formed in its layout. -/
theorem wfval_of_idrValue {s : State} {f : Frame} {v : Word64} (hw : s.impl.WF) (hf : s.impl.frames.get f = true)
    (h : idrValue s f = some v) : WFval s.impl.haveMPAMExt v := by
  rcases idrValue_wf_cases hw hf h with ⟨-, rfl⟩ | ⟨-, hv, -⟩
  · exact wfval_zero _
  · exact hv

theorem wfval64_of_idrValue {s : State} {f : Frame} {v : Word64} (hw : s.impl.WF) (hf : s.impl.frames.get f = true)
    (h64 : regWidth s.impl = 64) (h : idrValue s f = some v) : WFval64 v := by
  have hv := wfval_of_idrValue hw hf h
  rwa [(regWidth_eq_64_iff _).mp h64, WFval, if_pos rfl] at hv

theorem wfval32_of_idrValue {s : State} {f : Frame} {v : Word64} (hw : s.impl.WF) (hf : s.impl.frames.get f = true)
    (h32 : regWidth s.impl = 32) (h : idrValue s f = some v) : WFval32 v := by
  have hv := wfval_of_idrValue hw hf h
  rwa [(regWidth_eq_32_iff _).mp h32, WFval, if_neg Bool.false_ne_true] at hv

/-- The value of `f` follows only the selector of `f`, and that only with FEAT_MPAM and `HAS_RIS` (R53). -/
theorem idrValue_setRis {s : State} {f g : Frame} (n : RisNum)
    (h : f ≠ g ∨ hasRis (s.impl.idrOf g 0#4) = false ∨ s.impl.featMPAM = false) :
    idrValue (setRis g n s) f = idrValue s f := by
  by_cases hfg : f = g
  · subst hfg
    rcases h with h | h | h
    · exact absurd rfl h
    · simp [idrValue, h]
    · simp [idrValue, h]
  · exact idrValue_congr f rfl (PerFrame.get_set_of_ne _ _ hfg)

end Values

section Bits

/-- A slice inside a mask that a value has no bit of is 0. -/
theorem extractLsb'_eq_zero_of_and_eq_zero {v m : Word64} (h : v &&& m = 0#64) (a n : Nat)
    (hm : ∀ k, k < n → m.getLsbD (a + k) = true) : v.extractLsb' a n = 0#n := by
  ext k hk
  have hbit := congrArg (fun x => x.getLsbD (a + k)) h
  simpa [hm k hk] using hbit

theorem not_defined64 : ~~~defined64 = res0_64 := by decide

/-- R47 as a mask: a well-formed value of the 32-bit layout has no bit outside `DEFINED_32`. -/
theorem and_not_defined32_eq_zero {v : Word64} (h : WFval32 v) : v &&& ~~~defined32 = 0#64 := by
  obtain ⟨hhi, h28⟩ := h
  have hmask : ∀ k, k < 64 → (~~~defined32).getLsbD k = decide (32 ≤ k ∨ k = 28) := by decide
  refine BitVec.eq_of_getLsbD_eq fun k hk => ?_
  rw [BitVec.getLsbD_and, hmask k hk, BitVec.getLsbD_zero]
  by_cases hk32 : 32 ≤ k
  · have hbit := congrArg (fun x => x.getLsbD (k - 32)) hhi
    have : v.getLsbD k = false := by
      simpa [show k - 32 < 32 by omega, show 32 + (k - 32) = k by omega] using hbit
    simp [this]
  · by_cases hk28 : k = 28
    · rw [hk28, h28, Bool.false_and]
    · simp [hk32, hk28]

/-- A field whose description does not mention RIS lies outside `RISDEP`. -/
theorem and_mask_of_not_dependsOnRis {x : Field} (hx : x.dependsOnRis = false) : ~~~risDep &&& x.mask = x.mask := by
  cases x
  case noImplMsmon | noImplPart | hasPriPart | hasMbwPart | hasCporPart | hasCcapPart => cases hx
  all_goals rfl

theorem extractField_outsideRisDep (v : Word64) {x : Field} (hx : x.dependsOnRis = false) :
    extractField (outsideRisDep v) x = extractField v x := by
  rw [extractField, extractField, outsideRisDep, BitVec.and_assoc, and_mask_of_not_dependsOnRis hx]

end Bits

section Operations

/-- Each operation depends on the state through the implementation, the power and, if it reads, the value it reads. -/
theorem exec_congr {i : Instr} {s t : State} (hi : t.impl = s.impl) (hp : t.powered = s.powered)
    (hv : i.isRead = true → idrValue t i.frame = idrValue s i.frame) :
    (∀ r, exec i s = .next (recordAnswer i r s) → exec i t = .next (recordAnswer i r t))
      ∧ ∀ r, exec i s = .refused r → exec i t = .refused r := by
  have hf := firstRefusal_congr hi hp (encode i)
  rcases exec_is_shared i with ⟨view, hread, he⟩ | ⟨-, he⟩ <;> rw [he, he]
  · constructor
    · intro r h
      obtain ⟨hn, v, hs, ht⟩ := (devRead_eq_next_iff ..).mp h
      obtain rfl : r = view v := by simpa using congrArg State.answers ht
      exact (devRead_eq_next_iff ..).mpr ⟨hf.trans hn, v, (hv hread).trans hs, rfl⟩
    · intro r h
      rw [devRead_eq_refused_iff] at h ⊢
      rwa [hf, hv hread]
  · constructor
    · intro r h
      obtain ⟨hn, ht⟩ := (devWrite_eq_next_iff ..).mp h
      obtain rfl : r = .response (writeAnswer s.impl) := by simpa using congrArg State.answers ht
      exact (devWrite_eq_next_iff ..).mpr ⟨hf.trans hn, by rw [hi]⟩
    · intro r h
      rw [devWrite_eq_refused_iff] at h ⊢
      rwa [hf]

/-- D14: an accepted read of a register that shows no value is refused for its selector. -/
theorem devRead_refused_of_idrValue_none {i : Instr} (view : Word64 → Reply) {s : State}
    (ha : Accepts s i.requester i.frame) (hw : i.WF s.impl.haveMPAMExt) (hv : idrValue s i.frame = none) :
    devRead i view s = .refused .risOutOfRange :=
  (devRead_eq_refused_iff ..).mpr (.inr ⟨(firstRefusal_encode_eq_none_iff s i).mpr ⟨ha, hw⟩, hv, rfl⟩)

/-- An operation that completes adds one answer, and that answer is truthful (R102 to R105, R107). -/
theorem exec_next_truthful {i : Instr} {s t : State} (h : exec i s = .next t) :
    ∃ r, t = recordAnswer i r s ∧ Truthful s.impl ⟨i, r⟩ := by
  obtain ⟨hn, -⟩ := exec_next_cases h
  obtain ⟨⟨-, hf, hq⟩, hw⟩ := (firstRefusal_encode_eq_none_iff s i).mp hn
  cases i
  case rd32lS | rd32lNS | rd32hS | rd32hNS | rd64S | rd64NS =>
    obtain ⟨-, v, hv, rfl⟩ := (devRead_eq_next_iff _ _ s t).mp h
    exact ⟨_, rfl, hf, hq, hw, v, shows_of_idrValue hv, rfl⟩
  all_goals
    obtain ⟨-, rfl⟩ := (devWrite_eq_next_iff _ s t).mp h
    exact ⟨_, rfl, hf, hq, hw, rfl⟩

end Operations

section Steps

theorem exec_next_impl {i : Instr} {s t : State} (h : exec i s = .next t) : t.impl = s.impl := by
  obtain ⟨-, r, rfl⟩ := exec_next_cases h
  rfl

/-- R54, R56: no step changes a parameter. -/
theorem step_next_impl {s t : State} (h : step s = .next t) : t.impl = s.impl := by
  rcases step_next_cases h with ⟨-, rfl⟩ | ⟨e, rest, -, ⟨i, hi, -⟩ | ⟨f, n, -, rfl⟩ | ⟨b, -, rfl⟩⟩
  · rfl
  · simpa using exec_next_impl hi
  · rfl
  · simp

/-- What a step can do to the mutable state: nothing, set the selector its event names, or change the power. -/
theorem step_next_mutable_cases {s t : State} (h : step s = .next t) :
    (∃ rest, s.queue = .power (!s.powered) :: rest) ∨
      (t.powered = s.powered ∧ t.draws = s.draws
        ∧ (t.risSel = s.risSel ∨ ∃ f n rest, s.queue = .setRis f n :: rest ∧ t.risSel = s.risSel.set f n)) := by
  rcases step_next_cases h with ⟨-, rfl⟩ | ⟨e, rest, hq, ⟨i, hi, -⟩ | ⟨f, n, rfl, rfl⟩ | ⟨b, rfl, rfl⟩⟩
  · exact .inr ⟨rfl, rfl, .inl rfl⟩
  · obtain ⟨-, r, rfl⟩ := exec_next_cases hi
    exact .inr ⟨rfl, rfl, .inl rfl⟩
  · exact .inr ⟨rfl, rfl, .inr ⟨f, n, rest, hq, rfl⟩⟩
  · by_cases hb : b = s.powered
    · rw [setPower_of_eq (s := withQueue rest s) hb]
      exact .inr ⟨rfl, rfl, .inl rfl⟩
    · rw [Bool.eq_not.mpr hb] at hq
      exact .inl ⟨rest, hq⟩

/-- The invariant speaks of the implementation and the answers only. -/
theorem inv_congr {s t : State} (hi : t.impl = s.impl) (ha : t.answers = s.answers) (h : Inv s) : Inv t := by
  rwa [Machine.Inv, hi, ha]

theorem inv_recordAnswer {i : Instr} {r : Reply} {s : State} (h : Inv s) (ht : Truthful s.impl ⟨i, r⟩) :
    Inv (recordAnswer i r s) :=
  ⟨h.1, List.forall_mem_cons.mpr ⟨ht, h.2⟩⟩

theorem inv_resetOf {p : Impl} (hw : p.WF) (b : Bool) (x : PerFrame RisNum) : Inv (State.resetOf p b x) :=
  ⟨hw, List.forall_mem_nil _⟩

end Steps

/-- Settles O24: by the event the step takes; only an operation adds an answer, and that one is truthful. -/
theorem stepKeepsAnswersTruthful : Obligations.StepKeepsAnswersTruthful := by
  intro s t hs h
  rcases step_next_cases h with ⟨-, rfl⟩ | ⟨e, rest, -, ⟨i, hi, -⟩ | ⟨f, n, -, rfl⟩ | ⟨b, -, rfl⟩⟩
  · exact hs
  · obtain ⟨r, rfl, hr⟩ := exec_next_truthful hi
    exact inv_recordAnswer (inv_congr (s := s) rfl rfl hs) hr
  · exact inv_congr (s := s) rfl rfl hs
  · exact inv_congr (s := s) (by simp) (by simp) hs

/-- Settles O15. -/
theorem implementationNeverChanges : Obligations.ImplementationNeverChanges :=
  ⟨fun _ _ _ => exec_next_impl, fun _ _ h => ⟨step_next_impl h, by rw [step_next_impl h]⟩⟩

/-- Settles O16: from what a step can do to the mutable state. -/
theorem onlyEnvironmentChangesState : Obligations.OnlyEnvironmentChangesState := by
  intro s t h
  rcases step_next_mutable_cases h with hpow | ⟨hp, hd, hsel⟩
  · exact ⟨fun _ _ => .inr hpow, fun _ => hpow, fun _ => hpow⟩
  · refine ⟨fun f hf => .inl ?_, fun hne => absurd hp hne, fun hne => absurd hd hne⟩
    rcases hsel with heq | ⟨g, n, rest, hq, hset⟩
    · exact absurd (by rw [heq]) hf
    · by_cases hfg : f = g
      · exact ⟨n, rest, hfg ▸ hq⟩
      · exact absurd (by rw [hset, PerFrame.get_set_of_ne _ _ hfg]) hf

/-- Settles O27: each reserved slice lies in the mask that R43 and R47 clear. -/
theorem reservedBitsReadZero : Obligations.ReservedBitsReadZero := by
  intro s f v hw hf hv
  constructor
  · intro h64
    obtain ⟨hres, -⟩ := wfval64_of_idrValue hw hf h64 hv
    exact ⟨extractLsb'_eq_zero_of_and_eq_zero hres 60 4 (by decide),
      extractLsb'_eq_zero_of_and_eq_zero hres 40 16 (by decide),
      extractLsb'_eq_zero_of_and_eq_zero hres 33 3 (by decide), hres, by rwa [← not_defined64] at hres⟩
  · intro h32
    have h := wfval32_of_idrValue hw hf h32 hv
    exact ⟨h.2, and_not_defined32_eq_zero h⟩

/-- Settles O29: R44, R45 and R46 are parts of the well-formedness of every value shown. -/
theorem shownValuesMeetFieldConstraints : Obligations.ShownValuesMeetFieldConstraints := by
  intro s f v hw hf h64 hv
  obtain ⟨-, -, hmax, hnoImpl, hesr⟩ := wfval64_of_idrValue hw hf h64 hv
  exact ⟨hmax, hnoImpl, fun h32 h39 => hesr ⟨h32, h39⟩⟩

/-- Settles O30: both values agree outside `RISDEP` with `IDR[f][0]`, where every other field lies. -/
theorem risIndependentBitsAgree : Obligations.RisIndependentBitsAgree := by
  refine ⟨rfl, rfl, fun s t f v w hw hm hf hi hv hv' => ?_⟩
  have hsv := shows_of_idrValue hv
  have hsw : Shows s.impl f w := hi ▸ shows_of_idrValue hv'
  have hv0 := (wfval_of_shows hw hm hf hsv).2
  have hvw : outsideRisDep v = outsideRisDep w := hv0.trans (wfval_of_shows hw hm hf hsw).2.symm
  refine ⟨hvw, hv0, fun x hx => ?_, fun hr => ?_, ?_⟩
  · rw [← extractField_outsideRisDep v hx, hvw, extractField_outsideRisDep w hx]
  · exact Option.some.inj (hv.symm.trans (idrValue_of_hasRis_false hm hr))
  · rwa [Shows, if_pos hm] at hsv

/-- Settles O31: the changed selector changes no value the operation reads. -/
theorem selectorMattersOnlyToItsFrame : Obligations.SelectorMattersOnlyToItsFrame := by
  intro i s g n h
  have hv : i.isRead = true → idrValue (setRis g n s) i.frame = idrValue s i.frame := by
    intro hread
    rcases h with h | h | h
    · exact idrValue_setRis n (.inl h)
    · rw [h] at hread; cases hread
    · exact idrValue_setRis n (.inr h)
  obtain ⟨hnext, hrefused⟩ := exec_congr (s := s) (t := setRis g n s) rfl rfl hv
  refine ⟨fun t ht => ?_, hrefused⟩
  obtain ⟨-, r, rfl⟩ := exec_next_cases ht
  exact hnext r ht

/-- Settles O5. -/
theorem idrValueFollowsSelection : Obligations.IdrValueFollowsSelection := fun s f =>
  ⟨idrValue_of_featMPAM_false f, idrValue_of_hasRis_false, idrValue_of_hasRis,
    fun hm hr hlt => (idrValue_eq_none_iff s f).mpr ⟨hm, hr, BitVec.not_le.mpr hlt⟩⟩

/-- Settles O6: the selector names no value, so each of the three admitted reads stops at it. -/
theorem readsRefuseSelectorAboveRisMax : Obligations.ReadsRefuseSelectorAboveRisMax := by
  intro f q s ha hm h64 hr hlt
  have hnone : idrValue s f = none := (idrValue_eq_none_iff s f).mpr ⟨hm, hr, BitVec.not_le.mpr hlt⟩
  have hext : s.impl.haveMPAMExt = true := (regWidth_eq_64_iff _).mp h64
  rw [exec_rd32l, exec_rd32h, exec_rd64]
  refine ⟨?_, ?_, ?_⟩ <;>
    exact devRead_refused_of_idrValue_none _ (by simpa using ha) (fun _ => hext) (by simpa using hnone)

/-- Settles O11. -/
theorem setRisChangesOnlyItsSelector : Obligations.SetRisChangesOnlyItsSelector := fun s f n _ hq =>
  ⟨s.risSel.set f n, step_of_queue_cons hq, PerFrame.get_set_same _ _ _, fun _ hg => PerFrame.get_set_of_ne _ _ hg⟩

/-- Settles O25: nothing has been answered yet. -/
theorem resetIsTruthful : Obligations.ResetIsTruthful :=
  ⟨fun _ b x hw => inv_resetOf hw b x, inv_resetOf (by decide) _ _⟩

end Sys2Proof.Proofs

/-!
Proofs of the statements about the memory (20_memory.md): the bytes of the register in its frame, what an access leaves
unchanged, the readability of both feature pages, and the device order.
-/
namespace Sys2Proof.Proofs
open Sys2Proof Sys2Proof.Machine

section Bytes

/-- R64: byte `k` weighs `2 ^ (8k)` in the value. -/
theorem byteOf_toNat (v : Word64) (k : Nat) : (byteOf v k).toNat = v.toNat / 2 ^ (8 * k) % 2 ^ 8 := by
  rw [byteOf, BitVec.extractLsb'_toNat, Nat.shiftRight_eq_div_pow]

theorem getLsbD_byteOf (v : Word64) (k : Nat) {j : Nat} (hj : j < 8) :
    (byteOf v k).getLsbD j = v.getLsbD (8 * k + j) := by
  rw [byteOf, BitVec.getLsbD_extractLsb', decide_eq_true hj, Bool.true_and]

/-- The low half has the first four bytes of the value. -/
theorem byte_lowHalf (v : Word64) {k : Nat} (hk : k < 4) : (lowHalf v).extractLsb' (8 * k) 8 = byteOf v k := by
  ext j hj
  simp [lowHalf, byteOf, show 8 * k + j < 32 by omega]

/-- The high half has the last four bytes of the value. -/
theorem byte_highHalf (v : Word64) {k : Nat} (hk : k < 4) :
    (highHalf v).extractLsb' (8 * k) 8 = byteOf v (4 + k) := by
  ext j hj
  simp [highHalf, byteOf, show 8 * k + j < 32 by omega, show 32 + (8 * k + j) = 8 * (4 + k) + j by omega]

/-- R62, R64: a byte inside the register is that byte of the value shown. -/
theorem readByte_of_lt {s : State} {f : Frame} {v : Word64} (hv : idrValue s f = some v) {k : Nat}
    (hk : k < regBytes s.impl) : readByte s f k = some (byteOf v k) := by
  simp [readByte, hk, hv]

/-- R62: no byte from `RegWidth/8` on belongs to the register. -/
theorem readByte_of_ge {s : State} {k : Nat} (f : Frame) (hk : regBytes s.impl ≤ k) : readByte s f k = none := by
  rw [readByte, if_neg (Nat.not_lt.mpr hk)]

/-- A frame's bytes follow the implementation and the selector of that frame only. -/
theorem readByte_congr {s t : State} (f : Frame) (k : Nat) (hi : t.impl = s.impl)
    (hr : t.risSel.get f = s.risSel.get f) : readByte t f k = readByte s f k := by
  rw [readByte, readByte, idrValue_congr f hi hr, hi]

end Bytes

section Pages

/-- R53: under (P-sel) the register shows a value. -/
theorem idrValue_eq_some_of_selected {s : State} {f : Frame} (h : Selected s f) : ∃ v, idrValue s f = some v := by
  refine Option.ne_none_iff_exists'.mp fun hnone => ?_
  obtain ⟨-, hr, hlt⟩ := (idrValue_eq_none_iff s f).mp hnone
  exact hlt (h hr)

/-- R102: an accepted `RD32L` of a frame that shows a value completes, in either layout. -/
theorem rd32l_completes {s : State} {f : Frame} {q : Requester} (ha : Accepts s q f) (hs : Selected s f) :
    ∃ v, exec (.rd32l f q) s = .next (recordAnswer (.rd32l f q) (.word32 v) s) := by
  obtain ⟨v, hv⟩ := idrValue_eq_some_of_selected hs
  have hn : firstRefusal s (encode (.rd32l f q)) = none :=
    (firstRefusal_encode_eq_none_iff ..).mpr ⟨by simpa using ha, by simp [Instr.WF]⟩
  refine ⟨lowHalf v, ?_⟩
  rw [exec_rd32l]
  exact (devRead_eq_next_iff ..).mpr ⟨hn, v, by simpa using hv, rfl⟩

end Pages

/-- Settles O17: a completed operation only records its answer, and no byte follows the answers. -/
theorem operationsOnlyAnswer : Obligations.OperationsOnlyAnswer := by
  intro i s t h
  obtain ⟨-, r, rfl⟩ := exec_next_cases h
  exact ⟨⟨r, rfl⟩, rfl, rfl, rfl, rfl, rfl, fun f k => readByte_congr f k rfl rfl⟩

/-- Settles O32: the first operation leaves all that the second depends on as it was. -/
theorem accessesDoNotDisturbEachOther : Obligations.AccessesDoNotDisturbEachOther := by
  intro w i s t h
  obtain ⟨-, reply, rfl⟩ := exec_next_cases h
  obtain ⟨hnext, hrefused⟩ := exec_congr (i := i) (s := s) (t := recordAnswer w reply s) rfl rfl
    fun _ => idrValue_congr i.frame rfl rfl
  refine ⟨hrefused, fun u hu => ?_⟩
  obtain ⟨-, r, rfl⟩ := exec_next_cases hu
  exact ⟨r, rfl, hnext r hu⟩

/-- Settles O37: bit `j` of the value is bit `j % 8` of byte `j / 8`, since `8 * (j / 8) + j % 8 = j`. -/
theorem registerIsLittleEndian : Obligations.RegisterIsLittleEndian := by
  intro s f v hv
  refine ⟨fun k hk => ⟨byteOf v k, readByte_of_lt hv hk, byteOf_toNat v k⟩, fun k hk => readByte_of_ge f hk,
    fun k hk => ⟨byte_lowHalf v hk, byte_highHalf v hk⟩, fun j _ => ?_⟩
  rw [getLsbD_byteOf v (j / 8) (Nat.mod_lt j (by decide)), Nat.div_add_mod]

/-- Settles O44: with both memory maps both frames exist (R61), so both reads are accepted. -/
theorem bothPagesReadable : Obligations.BothPagesReadable := by
  intro s q hw hmaps hp hqs hqns hs hns
  obtain ⟨-, -, hframes, -⟩ := hw
  obtain ⟨hfs, hfns⟩ := hframes hmaps
  exact ⟨rd32l_completes (f := .secure) ⟨hp, hfs, hqs⟩ hs, rd32l_completes (f := .nonSecure) ⟨hp, hfns, hqns⟩ hns⟩

/-- Settles O47: by the event the step takes; only an operation answers, and a truthful answer's frame exists. -/
theorem stepTakesOneEvent : Obligations.StepTakesOneEvent := by
  intro s t h
  rcases step_next_cases h with ⟨hq, rfl⟩ | ⟨e, rest, hq, ⟨i, hi, -⟩ | ⟨f, n, -, rfl⟩ | ⟨b, -, rfl⟩⟩
  · exact ⟨by rw [hq, List.tail_nil], .inl rfl⟩
  · obtain ⟨r, rfl, hframe, -⟩ := exec_next_truthful hi
    exact ⟨by simp [hq], .inr ⟨_, rfl, hframe⟩⟩
  · exact ⟨by simp [hq], .inl rfl⟩
  · exact ⟨by simp [hq], .inl (by simp)⟩

end Sys2Proof.Proofs

/-!
Proofs of the statements about the encoding (30_encoding.md): the selector table and the packed form, the ordered checks
on an access and what completes, the refusals of a step, and the fields of the register.
-/
namespace Sys2Proof.Proofs
open Sys2Proof Sys2Proof.Machine

section Packing

@[simp] theorem frameOfCode_frameCode (f : Frame) : frameOfCode (frameCode f) = f := by cases f <;> rfl

@[simp] theorem kindOfCode_kindCode (k : Kind) : kindOfCode (kindCode k) k.data = k := by
  cases k with
  | read => rfl
  | write d => rfl
  | other k => cases k <;> rfl

theorem frameCode_lt (f : Frame) : frameCode f < 2 := by cases f <;> decide

theorem kindCode_lt (k : Kind) : kindCode k < 8 := by
  cases k with
  | read | write d => simp [kindCode]
  | other k => cases k <;> decide

/-- Each bit range of the packed form gives back the number placed in it (log entry 7). -/
theorem fields_of_packed_number {off k f sz d : Nat} (q : Nat) (hoff : off < 2 ^ 16) (hk : k < 8) (hf : f < 2)
    (hsz : sz < 2 ^ 8) (hd : d < 2 ^ 64) {w : Nat}
    (hw : w = off + 2 ^ 16 * k + 2 ^ 19 * f + 2 ^ 20 * sz + 2 ^ 32 * d + 2 ^ 96 * q) :
    w % 2 ^ 16 = off ∧ w / 2 ^ 16 % 8 = k ∧ w / 2 ^ 19 % 2 = f ∧ w / 2 ^ 20 % 2 ^ 8 = sz
      ∧ w / 2 ^ 32 % 2 ^ 64 = d ∧ w / 2 ^ 96 = q := by
  refine ⟨?_, ?_, ?_, ?_, ?_, ?_⟩ <;> omega

theorem unpack_pack {a : Access} (h : a.Packable) : unpack (pack a) = a := by
  obtain ⟨hoff, hsize, hdata⟩ := h
  have hx : a.size ^^^ 4 < 2 ^ 8 := Nat.xor_lt_two_pow hsize (by decide)
  obtain ⟨ho, hk, hf, hs, hd, hq⟩ := fields_of_packed_number a.requester hoff (kindCode_lt a.kind)
    (frameCode_lt a.frame) hx hdata (w := pack a) rfl
  rw [unpack, ho, hk, hf, hs, hd, hq, kindOfCode_kindCode, frameOfCode_frameCode, Nat.xor_xor_cancel_right]

/-- The syntactic facts of Laws/PerInstr.lean, for every operation at once. -/
theorem encoding_statement : ∀ i : Instr, Laws.Encoding.Statement i
  | .rd32lS q => Laws.Encoding.rd32lS q
  | .rd32lNS q => Laws.Encoding.rd32lNS q
  | .rd32hS q => Laws.Encoding.rd32hS q
  | .rd32hNS q => Laws.Encoding.rd32hNS q
  | .rd64S q => Laws.Encoding.rd64S q
  | .rd64NS q => Laws.Encoding.rd64NS q
  | .wr32lS q d => Laws.Encoding.wr32lS q d
  | .wr32lNS q d => Laws.Encoding.wr32lNS q d
  | .wr32hS q d => Laws.Encoding.wr32hS q d
  | .wr32hNS q d => Laws.Encoding.wr32hNS q d
  | .wr64S q d => Laws.Encoding.wr64S q d
  | .wr64NS q d => Laws.Encoding.wr64NS q d

theorem encode_packable (i : Instr) : (encode i).Packable := (encoding_statement i).2.1

end Packing

section Table

/-- R65: the three admitted pairs of offset and size, each with its part of the register. -/
theorem selectPart_eq_some_cases {off n : Nat} {x : Part} (h : selectPart off n = some x) :
    (x = .low ∧ off = 0 ∧ n = 4) ∨ (x = .high ∧ off = 4 ∧ n = 4) ∨ (x = .whole ∧ off = 0 ∧ n = 8) := by
  unfold selectPart at h
  split_ifs at h <;> simp_all

theorem selectPart_eq_none_iff_not_mem (off n : Nat) :
    selectPart off n = none ↔ (off, n) ∉ [(0x0000, 4), (0x0004, 4), (0x0000, 8)] := by
  simp [selectPart_eq_none_iff]

theorem isReadOrWrite_eq_false_iff (k : Kind) : isReadOrWrite k = false ↔ ∃ o, k = .other o := by
  cases k <;> simp [isReadOrWrite]

theorem isReadOrWrite_eq_true_iff (k : Kind) : isReadOrWrite k = true ↔ k = .read ∨ ∃ d, k = .write d := by
  cases k <;> simp [isReadOrWrite]

/-- R85: the row of the table that an operation is written in selects it. -/
theorem decode_encode (i : Instr) : decode (encode i) = .ok i := by
  cases i
  case rd32lS | rd32lNS | rd32hS | rd32hNS | rd64S | rd64NS => rfl
  all_goals simp [encode, decode, selectPart]

/-- R85: a read or a write of an admitted part selects an operation. -/
theorem exists_decode_eq_ok {a : Access} (hk : isReadOrWrite a.kind = true)
    (hp : selectPart a.offset a.size ≠ none) : ∃ i, decode a = .ok i := by
  cases h : decode a with
  | ok i => exact ⟨i, rfl⟩
  | error e =>
    rcases decode_error_cases h with hk' | hp'
    · rw [hk] at hk'; cases hk'
    · exact absurd hp' hp

/-- R85: the operation an access selects keeps all of it, if the access carries no more data than its size holds. -/
theorem encode_of_decode_ok {a : Access} {i : Instr} (h : decode a = .ok i) (hw : a.WF) : encode i = a := by
  obtain ⟨hk, x, hx⟩ := decode_ok_cases h
  obtain ⟨q, k, f, off, n⟩ := a
  rcases selectPart_eq_some_cases hx with ⟨-, rfl, rfl⟩ | ⟨-, rfl, rfl⟩ | ⟨-, rfl, rfl⟩
  all_goals
    rcases (isReadOrWrite_eq_true_iff k).mp hk with rfl | ⟨d, rfl⟩
    · cases f <;> cases h <;> rfl
    · have hd : d < 2 ^ (8 * _) := hw
      cases f <;> cases h <;> simpa [encode] using hd

end Table

section Checks

theorem not_mayReach_iff (p : Impl) (q : Requester) (f : Frame) : mayReach p q f = false ↔ (q, f) ∈ p.barred := by
  simp [mayReach]

/-- R86 (0). -/
theorem firstRefusal_of_other {s : State} {a : Access} (hk : isReadOrWrite a.kind = false) :
    firstRefusal s a = some .accessKindNotInSource := by
  simp [firstRefusal, hk]

/-- R86 (1). -/
theorem firstRefusal_of_unpowered {s : State} {a : Access} (hk : isReadOrWrite a.kind = true)
    (hp : s.powered = false) : firstRefusal s a = some .unpowered := by
  simp [firstRefusal, hk, hp]

/-- R86 (2). -/
theorem firstRefusal_of_no_frame {s : State} {a : Access} (hk : isReadOrWrite a.kind = true)
    (hp : s.powered = true) (hf : s.impl.frames.get a.frame = false) : firstRefusal s a = some .noSuchFrame := by
  simp [firstRefusal, hk, hp, hf]

/-- R86 (3). -/
theorem firstRefusal_of_barred {s : State} {a : Access} (hk : isReadOrWrite a.kind = true)
    (hp : s.powered = true) (hf : s.impl.frames.get a.frame = true) (hq : (a.requester, a.frame) ∈ s.impl.barred) :
    firstRefusal s a = some .frameNotReachable := by
  simp [firstRefusal, hk, hp, hf, (not_mayReach_iff ..).mpr hq]

/-- R86 (4) and (5): what is left to check of an accepted read or write. -/
theorem firstRefusal_of_accepts {s : State} {a : Access} (hk : isReadOrWrite a.kind = true)
    (ha : Accepts s a.requester a.frame) :
    firstRefusal s a =
      if regBytes s.impl ≤ a.offset ∨ regBytes s.impl < a.offset + a.size then some .offsetNotInScope
      else if selectPart a.offset a.size = none then some .accessSizeNotInSource else none := by
  obtain ⟨hp, hf, hq⟩ := ha
  simp [firstRefusal, hk, hp, hf, (mayReach_eq_true_iff ..).mpr hq]

theorem deliverAccess_of_firstRefusal {s : State} {a : Access} {r : Refusal} (h : firstRefusal s a = some r) :
    deliverAccess a s = .refused r :=
  (deliverAccess_eq_refused_iff ..).mpr (.inl h)

theorem deliverAccess_of_decode_ok {a : Access} {i : Instr} (h : decode a = .ok i) (s : State) :
    deliverAccess a s = exec i s := by
  rw [deliverAccess, h]

/-- An access that passes every check selects an operation that the layout has. -/
theorem decode_of_firstRefusal_eq_none {s : State} {a : Access} (h : firstRefusal s a = none) :
    ∃ i, decode a = .ok i ∧ i.WF s.impl.haveMPAMExt := by
  obtain ⟨hk, -, -, hp⟩ := (firstRefusal_eq_none_iff s a).mp h
  obtain ⟨i, hi⟩ := exists_decode_eq_ok hk hp
  exact ⟨i, hi, ((firstRefusal_encode_eq_none_iff s i).mp ((firstRefusal_of_decode_ok hi s).trans h)).2⟩

end Checks

section Completion

/-- R62, R65, R85: the rows of the selector table inside the register are those the layout admits. -/
theorem admitted_iff (p : Impl) (off n : Nat) :
    ((off < regBytes p ∧ off + n ≤ regBytes p) ∧ selectPart off n ≠ none) ↔
      (off = 0x0000 ∧ n = 4) ∨ (regWidth p = 64 ∧ ((off = 0x0004 ∧ n = 4) ∨ (off = 0x0000 ∧ n = 8))) := by
  rw [Ne, selectPart_eq_none_iff, regWidth_eq_64_iff]
  rcases regBytes_cases p with ⟨he, hb⟩ | ⟨he, hb⟩ <;> simp only [he, hb] <;> simp <;> omega

/-- When a delivered access completes: it passes the checks and, if it is a read, the register shows a value. -/
theorem deliverAccess_completes_iff_checks (a : Access) (s : State) :
    (∃ t, deliverAccess a s = .next t) ↔
      firstRefusal s a = none ∧ (a.kind = .read → ∃ v, idrValue s a.frame = some v) := by
  rw [deliverAccess_next_iff_not_refused]
  simp only [Ne, deliverAccess_eq_refused_iff]
  cases firstRefusal s a with
  | some r => simp
  | none =>
    rw [← Option.ne_none_iff_exists']
    exact ⟨fun h => ⟨rfl, fun hk hv => h _ (.inr ⟨rfl, hk, hv, rfl⟩)⟩, by simp +contextual⟩

/-- `Completes` is the condition: the checks, read in the terms of the table and the layout. -/
theorem deliverAccess_completes_iff (a : Access) (s : State) :
    (∃ t, deliverAccess a s = .next t) ↔ Completes s a := by
  rw [deliverAccess_completes_iff_checks, firstRefusal_eq_none_iff, admitted_iff, isReadOrWrite_eq_true_iff,
    Machine.Completes]
  cases a.kind <;> simp [and_comm]

theorem completes_withQueue (rest : List Event) (s : State) (a : Access) :
    Completes (withQueue rest s) a ↔ Completes s a := Iff.rfl

/-- When an operation completes: it passes the checks and, if it is a read, the register shows a value. -/
theorem exec_completes_iff (i : Instr) (s : State) :
    (∃ t, exec i s = .next t) ↔
      firstRefusal s (encode i) = none ∧ (i.isRead = true → ∃ v, idrValue s i.frame = some v) := by
  have hd := decode_encode i
  rw [← deliverAccess_of_decode_ok hd, deliverAccess_completes_iff_checks, isRead_of_decode_ok hd, encode_frame]

end Completion

section Delivery

theorem brings_access_iff (p : Impl) (a b : Access) : Brings p (.access a) b ↔ a = b := by
  simp [Brings]

theorem brings_memory_iff (p : Impl) (m : MemAccess) (a : Access) : Brings p (.memory m) a ↔ route p m = some a := by
  simp [Brings, route_eq_some_iff, and_assoc]

theorem not_brings_setRis (p : Impl) (f : Frame) (n : RisNum) (a : Access) : ¬Brings p (.setRis f n) a := by
  simp [Brings]

theorem not_brings_power (p : Impl) (b : Bool) (a : Access) : ¬Brings p (.power b) a := by
  simp [Brings]

/-- R100: the event that brings an access delivers it. -/
theorem deliver_of_brings {s : State} {e : Event} {a : Access} (h : Brings s.impl e a) :
    deliver e s = deliverAccess a s := by
  cases e with
  | access b => rw [(brings_access_iff ..).mp h, deliver]
  | memory m => rw [deliver, deliverMemory, (brings_memory_iff ..).mp h]
  | setRis f n => exact absurd h (not_brings_setRis _ f n a)
  | power b => exact absurd h (not_brings_power _ b a)

/-- What an event of the device order can be: one of the environment, an address outside every page, or an access. -/
theorem event_cases (p : Impl) (e : Event) :
    (∃ f n, e = .setRis f n) ∨ (∃ b, e = .power b) ∨ (∃ m, e = .memory m ∧ route p m = none) ∨ ∃ a, Brings p e a := by
  cases e with
  | access a => exact .inr (.inr (.inr ⟨a, (brings_access_iff ..).mpr rfl⟩))
  | memory m =>
    cases hr : route p m with
    | none => exact .inr (.inr (.inl ⟨m, rfl, hr⟩))
    | some a => exact .inr (.inr (.inr ⟨a, (brings_memory_iff ..).mpr hr⟩))
  | setRis f n => exact .inl ⟨f, n, rfl⟩
  | power b => exact .inr (.inl ⟨b, rfl⟩)

theorem deliver_of_route_none {s : State} {m : MemAccess} (h : route s.impl m = none) :
    deliver (.memory m) s = .refused .addressOutsideFrame := by
  rw [deliver, deliverMemory, h]

/-- When an event completes: it is one of the environment, or brings an access that completes. -/
theorem deliver_completes_iff (e : Event) (s : State) :
    (∃ t, deliver e s = .next t) ↔
      (∃ f n, e = .setRis f n) ∨ (∃ b, e = .power b) ∨ ∃ a, Brings s.impl e a ∧ Completes s a := by
  constructor
  · rintro ⟨t, ht⟩
    rcases event_cases s.impl e with hf | hb | ⟨m, rfl, hr⟩ | ⟨a, ha⟩
    · exact .inl hf
    · exact .inr (.inl hb)
    · rw [deliver_of_route_none hr] at ht
      cases ht
    · rw [deliver_of_brings ha] at ht
      exact .inr (.inr ⟨a, ha, (deliverAccess_completes_iff a s).mp ⟨t, ht⟩⟩)
  · rintro (⟨f, n, rfl⟩ | ⟨b, rfl⟩ | ⟨a, ha, hc⟩)
    · exact ⟨_, rfl⟩
    · exact ⟨_, rfl⟩
    · rw [deliver_of_brings ha]
      exact (deliverAccess_completes_iff a s).mpr hc

/-- What can refuse an event: its address outside every page, or the access it brings. -/
theorem deliver_refused_cases {e : Event} {s : State} {r : Refusal} (h : deliver e s = .refused r) :
    (r = .addressOutsideFrame ∧ ∃ m, e = .memory m ∧ route s.impl m = none)
      ∨ ∃ a, Brings s.impl e a ∧ deliverAccess a s = .refused r := by
  rcases event_cases s.impl e with ⟨f, n, rfl⟩ | ⟨b, rfl⟩ | ⟨m, rfl, hr⟩ | ⟨a, ha⟩
  · cases h
  · cases h
  · rw [deliver_of_route_none hr] at h
    cases h
    exact .inl ⟨rfl, m, rfl, hr⟩
  · exact .inr ⟨a, ha, deliver_of_brings ha ▸ h⟩

/-- R140: there is no fault, so a step is refused exactly when it does not complete. -/
theorem step_refused_iff_not_next (s : State) : (∃ r, step s = .refused r) ↔ ¬∃ t, step s = .next t := by
  cases step s with
  | next t => simp
  | fault f => cases f
  | refused r => simp

theorem step_completes_iff (s : State) :
    (∃ t, step s = .next t) ↔ s.queue = [] ∨ ∃ e rest, s.queue = e :: rest ∧
      ((∃ f n, e = .setRis f n) ∨ (∃ b, e = .power b) ∨ ∃ a, Brings s.impl e a ∧ Completes s a) := by
  cases hq : s.queue with
  | nil => simp [step_of_queue_nil hq]
  | cons e rest =>
    rw [step_of_queue_cons hq, deliver_completes_iff]
    simp [completes_withQueue]

end Delivery

section Fields

/-- R83: mask and shift take the slice of the field's bits. -/
theorem extractField_eq_slice (v : Word64) (x : Field) :
    extractField v x = (v.extractLsb' x.lo x.width).setWidth 64 :=
  mask_shift_eq_slice v x.mask x.lo x.width (by cases x <;> decide)

theorem pairValue_halves (v : Word64) : pairValue (highHalf v) (lowHalf v) = v :=
  BitVec.eq_of_getLsbD_eq fun k hk => by rw [getLsbD_pairValue v v k hk, ite_self]

theorem extractField_eq_zero_of_slice {v : Word64} {x : Field} (h : v.extractLsb' x.lo x.width = 0#x.width) :
    extractField v x = 0#64 := by
  rw [extractField_eq_slice, h, BitVec.setWidth_zero]

/-- A one-bit field is 0 where its bit is. -/
theorem extractField_eq_zero_of_bit {v : Word64} {x : Field} (hx : x.width = 1) (h : v.getLsbD x.lo = false) :
    extractField v x = 0#64 := by
  refine extractField_eq_zero_of_slice (BitVec.eq_of_getLsbD_eq fun k hk => ?_)
  obtain rfl : k = 0 := by omega
  simp [h]

/-- The fields from bit 32 up are 0 in a value whose upper half is. -/
theorem extractField_eq_zero_of_highHalf {v : Word64} {x : Field} (hx : 32 ≤ x.lo)
    (h : v.extractLsb' 32 32 = 0#32) : extractField v x = 0#64 := by
  refine extractField_eq_zero_of_slice (BitVec.eq_of_getLsbD_eq fun k hk => ?_)
  have hend : x.lo + x.width ≤ 64 := by cases x <;> decide
  have hbit := congrArg (fun u => u.getLsbD (x.lo + k - 32)) h
  simpa [hk, show x.lo + k - 32 < 32 by omega, show 32 + (x.lo + k - 32) = x.lo + k by omega] using hbit

/-- R24, R26 to R31: a field absent from the 64-bit layout lacks `EXT`, `HAS_RIS` or `HAS_IMPL_IDR`. -/
theorem absent_cases_of_64 {v : Word64} {x : Field} (h : fieldPresent true v x = false) :
    (32 ≤ x.lo ∧ ext v = false) ∨ (x = .risMax ∧ hasRis v = false)
      ∨ ((x = .noImplMsmon ∨ x = .noImplPart) ∧ hasImplIdr v = false) := by
  cases x
  case hasEsr | hasExtdEsr | hasRis => exact .inl ⟨by decide, h⟩
  case risMax =>
    have h : (ext v && hasRis v) = false := h
    exact (Bool.and_eq_false_iff.mp h).imp (⟨by decide, ·⟩) (.inl ⟨rfl, ·⟩)
  case noImplMsmon | noImplPart =>
    have h : (ext v && hasImplIdr v) = false := h
    exact (Bool.and_eq_false_iff.mp h).imp (⟨by decide, ·⟩) (.inr ⟨by decide, ·⟩)
  all_goals cases h

/-- R25, R35: a field absent from the 32-bit layout lies in the upper half or is `EXT`. -/
theorem absent_cases_of_32 {v : Word64} {x : Field} (h : fieldPresent false v x = false) : 32 ≤ x.lo ∨ x = .ext := by
  cases x
  case risMax | hasEsr | hasExtdEsr | noImplMsmon | noImplPart | hasRis => exact .inl (by decide)
  case ext => exact .inr rfl
  all_goals cases h

/-- R43 to R46: a well-formed value of the 64-bit layout has 0 in each absent field. -/
theorem extractField_eq_zero_of_wfval64 {v : Word64} {x : Field} (hv : WFval64 v)
    (h : fieldPresent true v x = false) : extractField v x = 0#64 := by
  obtain ⟨-, hext, hris, himpl, -⟩ := hv
  rcases absent_cases_of_64 h with ⟨hx, h28⟩ | ⟨rfl, h32⟩ | ⟨rfl | rfl, h29⟩
  · exact extractField_eq_zero_of_highHalf hx (hext h28)
  · exact extractField_eq_zero_of_slice (hris h32)
  · exact extractField_eq_zero_of_bit rfl (himpl h29).1
  · exact extractField_eq_zero_of_bit rfl (himpl h29).2

/-- R47: a well-formed value of the 32-bit layout has 0 in each absent field. -/
theorem extractField_eq_zero_of_wfval32 {v : Word64} {x : Field} (hv : WFval32 v)
    (h : fieldPresent false v x = false) : extractField v x = 0#64 := by
  obtain ⟨hhigh, h28⟩ := hv
  rcases absent_cases_of_32 h with hx | rfl
  · exact extractField_eq_zero_of_highHalf hx hhigh
  · exact extractField_eq_zero_of_bit rfl h28

end Fields

/-- Settles O20: by rows for the access, and by `unpack_pack` for the packed form. -/
theorem decodeEncodeRoundTrip : Obligations.DecodeEncodeRoundTrip := fun i =>
  ⟨decode_encode i, by rw [decodeWord, encodeWord, unpack_pack (encode_packable i), decode_encode]⟩

/-- Settles O8: each check of R86 in its order, and then the operation the access decodes to. -/
theorem accessRefusedForFirstReason : Obligations.AccessRefusedForFirstReason := by
  intro a s
  refine ⟨fun h => deliverAccess_of_firstRefusal (firstRefusal_of_other ((isReadOrWrite_eq_false_iff _).mpr h)),
    fun hne => ?_⟩
  have hk : isReadOrWrite a.kind = true := by
    rw [← Bool.not_eq_false, isReadOrWrite_eq_false_iff]
    exact fun ⟨k, h⟩ => hne k h
  refine ⟨fun hp => deliverAccess_of_firstRefusal (firstRefusal_of_unpowered hk hp),
    fun hp hf => deliverAccess_of_firstRefusal (firstRefusal_of_no_frame hk hp hf),
    fun hp hf hq => deliverAccess_of_firstRefusal (firstRefusal_of_barred hk hp hf hq), fun ha => ?_⟩
  have hlast := firstRefusal_of_accepts hk ha
  refine ⟨fun hout => deliverAccess_of_firstRefusal (hlast.trans (if_pos hout)), fun hoff hend => ?_⟩
  rw [if_neg (by rw [regBytes]; omega)] at hlast
  rw [← selectPart_eq_none_iff_not_mem]
  refine ⟨fun hp => deliverAccess_of_firstRefusal (hlast.trans (if_pos hp)), fun hrow => ?_⟩
  have hp : selectPart a.offset a.size ≠ none := fun hp => (selectPart_eq_none_iff_not_mem ..).mp hp hrow
  obtain ⟨i, hi, hw⟩ := decode_of_firstRefusal_eq_none (hlast.trans (if_neg hp))
  obtain ⟨hq, hf⟩ := decode_ok_fields hi
  exact ⟨i, hi, hf, hq, hw, deliverAccess_of_decode_ok hi s⟩

/-- Settles O18. -/
theorem operationCompletesExactlyWhen : Obligations.OperationCompletesExactlyWhen := by
  intro i s
  rw [exec_completes_iff, firstRefusal_encode_eq_none_iff, regWidth_eq_64_iff, and_assoc]

/-- Settles O19: the delivered access completes, so `Completes` and its decoded row say what it is. -/
theorem onlyTableAccessesComplete : Obligations.OnlyTableAccessesComplete := by
  intro s t a rest hq h
  rw [step_of_queue_cons hq, deliver] at h
  obtain ⟨hkind, -, hrow⟩ := (deliverAccess_completes_iff a _).mp ⟨t, h⟩
  obtain ⟨i, hi, hexec⟩ := deliverAccess_next_cases h
  obtain ⟨-, r, rfl⟩ := exec_next_cases hexec
  refine ⟨hkind.imp_left And.left, ?_, i, r, hi, rfl⟩
  rcases hrow with hlow | ⟨h64, hhigh | hwhole⟩
  · exact .inl hlow
  · exact .inr (.inl ⟨hhigh.1, hhigh.2, h64⟩)
  · exact .inr (.inr ⟨hwhole.1, hwhole.2, h64⟩)

/-- Settles O21. -/
theorem decodedAccessIsTheEncodedOne : Obligations.DecodedAccessIsTheEncodedOne := fun _ _ => encode_of_decode_ok

/-- Settles O22. -/
theorem packedFormLosesNothing : Obligations.PackedFormLosesNothing := fun _ => unpack_pack

/-- Settles O28: what is shown is well formed in its layout, and well-formedness clears each absent field. -/
theorem absentFieldsReadZero : Obligations.AbsentFieldsReadZero := by
  intro s f v x hw hf hv habs
  have hwf := wfval_of_idrValue hw hf hv
  cases hext : s.impl.haveMPAMExt with
  | true =>
    rw [hext] at hwf habs
    exact extractField_eq_zero_of_wfval64 hwf habs
  | false =>
    rw [hext] at hwf habs
    exact extractField_eq_zero_of_wfval32 hwf habs

/-- Settles O38: one lemma for all fields, at each of them. -/
theorem fieldExtractionIsSlicing : Obligations.FieldExtractionIsSlicing := fun v =>
  have slice := extractField_eq_slice v
  ⟨slice .risMax, slice .hasEsr, slice .hasExtdEsr, slice .noImplMsmon, slice .noImplPart, slice .hasRis,
    slice .hasPartidNrw, slice .hasMsmon, slice .hasImplIdr, slice .ext, slice .hasPriPart, slice .hasMbwPart,
    slice .hasCporPart, slice .hasCcapPart, slice .pmgMax, slice .partidMax, fun _ => rfl, pairValue_halves v⟩

/-- Settles O45: there is no fault, so the second condition is the negation of the first. -/
theorem stepCompletesExactlyWhen : Obligations.StepCompletesExactlyWhen := by
  intro s
  refine ⟨step_completes_iff s, ?_⟩
  rw [step_refused_iff_not_next, step_completes_iff]
  cases hq : s.queue with
  | nil => simp
  | cons e rest => simp

/-- Settles O46: by what the event at the head brings, and by the check that the access it brings fails. -/
theorem refusalsAreNamed : Obligations.RefusalsAreNamed := by
  intro s r h
  cases hq : s.queue with
  | nil => rw [step_of_queue_nil hq] at h; cases h
  | cons e rest =>
    rw [step_of_queue_cons hq] at h
    refine ⟨e, rest, rfl, ?_⟩
    rcases deliver_refused_cases h with ⟨rfl, m, rfl, hr⟩ | ⟨a, ha, hr⟩
    · exact .inl ⟨rfl, m, rfl, (route_eq_none_iff ..).mp hr⟩
    · refine .inr ⟨a, ha, ?_⟩
      rw [← isReadOrWrite_eq_false_iff, ← not_mayReach_iff, ← selectPart_eq_none_iff_not_mem, ← BitVec.not_le,
        ← idrValue_eq_none_iff]
      rcases (deliverAccess_eq_refused_iff ..).mp hr with hr | ⟨-, hk, hv, rfl⟩
      · rcases firstRefusal_eq_some_cases hr with h | h | h | h | h | h
        · exact .inl h
        · exact .inr (.inl h)
        · exact .inr (.inr (.inl h))
        · exact .inr (.inr (.inr (.inl h)))
        · exact .inr (.inr (.inr (.inr (.inl h))))
        · exact .inr (.inr (.inr (.inr (.inr (.inl h)))))
      · exact .inr (.inr (.inr (.inr (.inr (.inr ⟨rfl, hk, hv⟩)))))

/-- Settles O23: by evaluation. -/
theorem selectorTableRows : Obligations.SelectorTableRows := by
  unfold Obligations.SelectorTableRows
  decide

/-- Settles O39: by evaluation. -/
theorem fieldMasksPartitionRegister : Obligations.FieldMasksPartitionRegister := by
  unfold Obligations.FieldMasksPartitionRegister
  decide

end Sys2Proof.Proofs

/-!
Proofs of the statements about the access operations (40_access_operations.md): the six reads and the six writes, the
location without FEAT_MPAM, `RDPAIR` and its selector hazard, and what a step does with an access.
-/
namespace Sys2Proof.Proofs
open Sys2Proof Sys2Proof.Machine

section Halves

theorem slice_lowHalf (v : Word64) {a n : Nat} (h : a + n ≤ 32) :
    (lowHalf v).extractLsb' a n = v.extractLsb' a n := by
  ext k hk
  simp [lowHalf, show a + k < 32 by omega]

theorem slice_highHalf (v : Word64) {a n : Nat} (h : a + n ≤ 32) :
    (highHalf v).extractLsb' a n = v.extractLsb' (32 + a) n := by
  ext k hk
  simp [highHalf, show a + k < 32 by omega, Nat.add_assoc]

theorem slice_lowHalf_congr {v w : Word64} {a n : Nat} (h : a + n ≤ 32)
    (hs : v.extractLsb' a n = w.extractLsb' a n) : (lowHalf v).extractLsb' a n = (lowHalf w).extractLsb' a n := by
  rw [slice_lowHalf v h, slice_lowHalf w h, hs]

theorem slice_highHalf_congr {v w : Word64} {a n : Nat} (h : a + n ≤ 32)
    (hs : v.extractLsb' (32 + a) n = w.extractLsb' (32 + a) n) :
    (highHalf v).extractLsb' a n = (highHalf w).extractLsb' a n := by
  rw [slice_highHalf v h, slice_highHalf w h, hs]

@[simp] theorem lowHalf_pairValue (hi lo : Word32) : lowHalf (pairValue hi lo) = lo :=
  BitVec.extractLsb'_append_eq_right

@[simp] theorem highHalf_pairValue (hi lo : Word32) : highHalf (pairValue hi lo) = hi :=
  BitVec.extractLsb'_append_eq_left

theorem slice_low_pairValue (hi : Word32) (v : Word64) {a n : Nat} (h : a + n ≤ 32) :
    (pairValue hi (lowHalf v)).extractLsb' a n = v.extractLsb' a n := by
  rw [← slice_lowHalf _ h, lowHalf_pairValue, slice_lowHalf v h]

theorem slice_high_pairValue (v : Word64) (lo : Word32) {a n : Nat} (h : a + n ≤ 32) :
    (pairValue (highHalf v) lo).extractLsb' (32 + a) n = v.extractLsb' (32 + a) n := by
  rw [← slice_highHalf _ h, highHalf_pairValue, slice_highHalf v h]

theorem getLsbD_of_highHalf_eq {v w : Word64} (h : highHalf v = highHalf w) {k : Nat} (hk : 32 ≤ k) :
    v.getLsbD k = w.getLsbD k := by
  by_cases hlt : k < 64
  · have hbit := congrArg (fun x => x.getLsbD (k - 32)) h
    simpa [highHalf, show k - 32 < 32 by omega, show 32 + (k - 32) = k by omega] using hbit
  · rw [BitVec.getLsbD_of_ge _ _ (by omega), BitVec.getLsbD_of_ge _ _ (by omega)]

/-- Only the upper half, `EXT` and `HAS_IMPL_IDR` decide whether a value of the 64-bit layout is well formed (R43 to
R46). -/
theorem wfval64_of_highHalf_eq {v w : Word64} (hw : WFval64 w) (hhigh : highHalf v = highHalf w)
    (h28 : v.getLsbD 28 = w.getLsbD 28) (h29 : v.getLsbD 29 = w.getLsbD 29) : WFval64 v := by
  have hbit {k : Nat} (hk : 32 ≤ k) : v.getLsbD k = w.getLsbD k := getLsbD_of_highHalf_eq hhigh hk
  have hlow : ∀ k, k < 32 → res0_64.getLsbD k = false := by decide
  have hres : v &&& res0_64 = w &&& res0_64 := BitVec.eq_of_getLsbD_eq fun k _ => by
    rw [BitVec.getLsbD_and, BitVec.getLsbD_and]
    by_cases hk : k < 32
    · rw [hlow k hk, Bool.and_false, Bool.and_false]
    · rw [hbit (Nat.le_of_not_lt hk)]
  have hmax : v.extractLsb' 56 4 = w.extractLsb' 56 4 := BitVec.eq_of_getLsbD_eq fun k _ => by
    rw [BitVec.getLsbD_extractLsb', BitVec.getLsbD_extractLsb', hbit (by omega)]
  have hupper : v.extractLsb' 32 32 = w.extractLsb' 32 32 := hhigh
  rwa [WFval64, hres, hmax, hupper, h28, h29, hbit (k := 32) (by decide), hbit (k := 36) (by decide),
    hbit (k := 37) (by decide), hbit (k := 38) (by decide), hbit (k := 39) (by decide)]

/-- R106: a pair whose halves come from values that agree outside `RISDEP` agrees with them there. -/
theorem outsideRisDep_pairValue {v w : Word64} (h : outsideRisDep v = outsideRisDep w) :
    outsideRisDep (pairValue (highHalf w) (lowHalf v)) = outsideRisDep w := by
  refine BitVec.eq_of_getLsbD_eq fun k hk => ?_
  have hbit := congrArg (fun x => x.getLsbD k) h
  simp only [outsideRisDep, BitVec.getLsbD_and, getLsbD_pairValue v w k hk] at hbit ⊢
  split
  · exact hbit
  · rfl

/-- R106: the pair stays well formed, since every bit that the constraints on the upper half hang on lies in that half
or outside `RISDEP`. -/
theorem wfval64_pairValue {v w : Word64} (h : outsideRisDep v = outsideRisDep w) (hw : WFval64 w) :
    WFval64 (pairValue (highHalf w) (lowHalf v)) := by
  have hbits := getLsbD_of_outsideRisDep (outsideRisDep_pairValue h)
  exact wfval64_of_highHalf_eq hw (highHalf_pairValue ..) (hbits 28 (by decide)) (hbits 29 (by decide))

end Halves

section Shown

/-- D2: the 64-bit layout needs FEAT_MPAM. -/
theorem featMPAM_of_wf {p : Impl} (hw : p.WF) (h64 : regWidth p = 64) : p.featMPAM = true :=
  hw.1 ((regWidth_eq_64_iff p).mp h64)

/-- R48: outside `RISDEP` what is shown is `IDR[f][0]`, whatever is selected. -/
theorem outsideRisDep_of_idrValue {s : State} {f : Frame} {v : Word64} (hw : s.impl.WF) (hm : s.impl.featMPAM = true)
    (hf : s.impl.frames.get f = true) (hv : idrValue s f = some v) :
    outsideRisDep v = outsideRisDep (s.impl.idrOf f 0#4) :=
  (wfval_of_shows hw hm hf (shows_of_idrValue hv)).2

/-- R48, R52: `SetRIS` changes no slice outside `RISDEP` of what is shown. -/
theorem slice_eq_of_setRis {s : State} {f g : Frame} {n : RisNum} {v w : Word64} (hw : s.impl.WF)
    (hm : s.impl.featMPAM = true) (hf : s.impl.frames.get f = true) (hv : idrValue s f = some v)
    (hn : idrValue (setRis g n s) f = some w) {a l : Nat} (hl : ∀ k, k < l → risDep.getLsbD (a + k) = false) :
    v.extractLsb' a l = w.extractLsb' a l :=
  have hv0 := outsideRisDep_of_idrValue hw hm hf hv
  have hw0 := outsideRisDep_of_idrValue (s := setRis g n s) hw hm hf hn
  extractLsb'_of_outsideRisDep (hv0.trans hw0.symm) a l hl

/-- R43: the upper half is 0 where `IDR[f][0]` has `EXT` 0, whatever is selected. -/
theorem highHalf_eq_zero_of_ext {s : State} {f : Frame} {v : Word64} (hw : s.impl.WF)
    (hf : s.impl.frames.get f = true) (h64 : regWidth s.impl = 64) (hv : idrValue s f = some v)
    (hext : ext (s.impl.idrOf f 0#4) = false) : highHalf v = 0#32 := by
  have hv0 := outsideRisDep_of_idrValue hw (featMPAM_of_wf hw h64) hf hv
  have h28 : v.getLsbD 28 = false := (getLsbD_of_outsideRisDep hv0 28 (by decide)).trans hext
  exact (wfval64_of_idrValue hw hf h64 hv).2.1 h28

end Shown

section Answers

/-- R102 to R104: an admitted read of a register that shows a value answers with its part of that value. -/
theorem devRead_next_of_idrValue {i : Instr} (view : Word64 → Reply) {s : State} {v : Word64}
    (ha : Accepts s i.requester i.frame) (hw : i.WF s.impl.haveMPAMExt) (hv : idrValue s i.frame = some v) :
    devRead i view s = .next (recordAnswer i (view v) s) :=
  (devRead_eq_next_iff ..).mpr ⟨(firstRefusal_encode_eq_none_iff s i).mpr ⟨ha, hw⟩, v, hv, rfl⟩

/-- R105: an admitted write answers with its response. -/
theorem exec_write_next {i : Instr} {s : State} (hwrite : i.isRead = false) (ha : Accepts s i.requester i.frame)
    (hw : i.WF s.impl.haveMPAMExt) : exec i s = .next (recordAnswer i (.response (writeAnswer s.impl)) s) := by
  rcases exec_is_shared i with ⟨-, hread, -⟩ | ⟨-, he⟩
  · rw [hwrite] at hread; cases hread
  · rw [he]
    exact (devWrite_eq_next_iff ..).mpr ⟨(firstRefusal_encode_eq_none_iff s i).mpr ⟨ha, hw⟩, rfl⟩

/-- R103 to R105, D6: in the 32-bit layout an operation that needs 64 bits is refused. -/
theorem exec_refused_of_narrow {i : Instr} {s : State} (ha : Accepts s i.requester i.frame) (hn : i.needs64 = true)
    (h32 : regWidth s.impl = 32) : exec i s = .refused .offsetNotInScope := by
  have hr := firstRefusal_encode_of_narrow ha hn ((regWidth_eq_32_iff _).mp h32)
  rw [← deliverAccess_of_decode_ok (decode_encode i)]
  exact deliverAccess_of_firstRefusal hr

theorem exec_rd32l_next {f : Frame} {q : Requester} {s : State} {v : Word64} (ha : Accepts s q f)
    (hv : idrValue s f = some v) :
    exec (.rd32l f q) s = .next (recordAnswer (.rd32l f q) (.word32 (lowHalf v)) s) := by
  rw [exec_rd32l]
  exact devRead_next_of_idrValue _ (by simpa using ha) (by simp [Instr.WF]) (by simpa using hv)

theorem exec_rd32h_next {f : Frame} {q : Requester} {s : State} {v : Word64} (ha : Accepts s q f)
    (h64 : regWidth s.impl = 64) (hv : idrValue s f = some v) :
    exec (.rd32h f q) s = .next (recordAnswer (.rd32h f q) (.word32 (highHalf v)) s) := by
  rw [exec_rd32h]
  exact devRead_next_of_idrValue _ (by simpa using ha) (fun _ => (regWidth_eq_64_iff _).mp h64) (by simpa using hv)

theorem exec_rd64_next {f : Frame} {q : Requester} {s : State} {v : Word64} (ha : Accepts s q f)
    (h64 : regWidth s.impl = 64) (hv : idrValue s f = some v) :
    exec (.rd64 f q) s = .next (recordAnswer (.rd64 f q) (.word64 v) s) := by
  rw [exec_rd64]
  exact devRead_next_of_idrValue _ (by simpa using ha) (fun _ => (regWidth_eq_64_iff _).mp h64) (by simpa using hv)

theorem exec_wr32l_next {f : Frame} {q : Requester} {s : State} (ha : Accepts s q f) (d : Word32) :
    exec (.wr32l f q d) s = .next (recordAnswer (.wr32l f q d) (.response (writeAnswer s.impl)) s) := by
  cases f <;> exact exec_write_next rfl ha nofun

theorem exec_wr32h_next {f : Frame} {q : Requester} {s : State} (ha : Accepts s q f) (h64 : regWidth s.impl = 64)
    (d : Word32) :
    exec (.wr32h f q d) s = .next (recordAnswer (.wr32h f q d) (.response (writeAnswer s.impl)) s) := by
  have hext := (regWidth_eq_64_iff _).mp h64
  cases f <;> exact exec_write_next rfl ha fun _ => hext

theorem exec_wr64_next {f : Frame} {q : Requester} {s : State} (ha : Accepts s q f) (h64 : regWidth s.impl = 64)
    (d : Word64) :
    exec (.wr64 f q d) s = .next (recordAnswer (.wr64 f q d) (.response (writeAnswer s.impl)) s) := by
  have hext := (regWidth_eq_64_iff _).mp h64
  cases f <;> exact exec_write_next rfl ha fun _ => hext

end Answers

section Steps

/-- R100: the access an operation is written as runs that operation. -/
theorem step_encode {s : State} {i : Instr} {rest : List Event} (hq : s.queue = .access (encode i) :: rest) :
    step s = exec i (withQueue rest s) := by
  rw [step_of_queue_cons hq, deliver, deliverAccess_of_decode_ok (decode_encode i)]

/-- An operation that would complete in `s` answers the same when its access is taken in a state with the
implementation, the power and the selector of its frame as in `s`. -/
theorem step_encode_next {s t : State} {i : Instr} {r : Reply} {rest : List Event}
    (h : exec i s = .next (recordAnswer i r s)) (hq : t.queue = .access (encode i) :: rest)
    (hi : t.impl = s.impl) (hp : t.powered = s.powered) (hr : t.risSel.get i.frame = s.risSel.get i.frame) :
    step t = .next (recordAnswer i r (withQueue rest t)) := by
  rw [step_encode hq]
  exact exec_next_congr h hi hp hr

/-- R68, R70: the accesses of two operations that would each complete now are answered in two steps, in their order. -/
theorem two_steps_next {s : State} {i j : Instr} {r u : Reply} {rest : List Event}
    (hi : exec i s = .next (recordAnswer i r s)) (hj : exec j s = .next (recordAnswer j u s))
    (hq : s.queue = .access (encode i) :: .access (encode j) :: rest) :
    ∃ t, step s = .next t ∧ step t = .next { s with queue := rest, answers := ⟨j, u⟩ :: ⟨i, r⟩ :: s.answers } :=
  ⟨_, step_encode_next hi hq rfl rfl rfl, step_encode_next hj rfl rfl rfl rfl⟩

/-- R52: `SetRIS` sets its selector in one step. -/
theorem step_setRis {s : State} {f : Frame} {n : RisNum} {rest : List Event} (hq : s.queue = .setRis f n :: rest) :
    step s = .next (setRis f n (withQueue rest s)) :=
  step_of_queue_cons hq

/-- R106: the same with a `SetRIS(f, n)` between the two accesses, where the second would complete with the new
selector. -/
theorem torn_steps_next {s : State} {i j : Instr} {r u : Reply} {f : Frame} {n : RisNum} {rest : List Event}
    (hi : exec i s = .next (recordAnswer i r s))
    (hj : exec j (setRis f n s) = .next (recordAnswer j u (setRis f n s)))
    (hq : s.queue = .access (encode i) :: .setRis f n :: .access (encode j) :: rest) :
    ∃ t₁ t₂, step s = .next t₁ ∧ step t₁ = .next t₂ ∧ step t₂ = .next
      { setRis f n s with queue := rest, answers := ⟨j, u⟩ :: ⟨i, r⟩ :: s.answers } := by
  refine ⟨_, _, step_encode_next hi hq rfl rfl rfl, step_setRis rfl, ?_⟩
  exact step_encode_next hj rfl rfl rfl rfl

/-- The word of the table that decodes to an operation is taken as an access that selects it (log entries 5 and 7). -/
theorem decode_of_decodeTableWord {n w : Nat} {i : Instr} (h : decodeTableWord n w = some i) :
    decode (unpack (w % 2 ^ n)) = .ok i := by
  unfold decodeTableWord decodeWord at h
  split at h
  · next j hj => rw [hj, Option.some.inj h]
  · cases h

end Steps

/-- Settles O1: the low half of the value shown; its slices are slices of that value. -/
theorem rd32lReturnsLowHalf : Obligations.Rd32lReturnsLowHalf := by
  intro f q s ha
  have ⟨_, hf, _⟩ := ha
  refine ⟨fun v hv => exec_rd32l_next ha hv, fun hv => ?_,
    fun hm => exec_rd32l_next ha (idrValue_of_featMPAM_false f hm), fun hw v hv => ⟨fun h32 => ?_, fun h64 hr => ?_⟩,
    fun t u r ht hans hi hp hsel => ?_⟩
  · rw [exec_rd32l]
    exact devRead_refused_of_idrValue_none _ (by simpa using ha) (by simp [Instr.WF]) (by simpa using hv)
  · simpa using (wfval32_of_idrValue hw hf h32 hv).2
  · have hm := featMPAM_of_wf hw h64
    refine ⟨?_, fun n w hn => ?_⟩
    · rw [← eq_selected_of_idrValue hm hr hv]
      exact slice_lowHalf v (by decide)
    · have hagree {a l : Nat} := slice_eq_of_setRis hw hm hf hv hn (a := a) (l := l)
      exact ⟨slice_lowHalf_congr (by decide) (hagree (by decide)),
        slice_lowHalf_congr (by decide) (hagree (by decide))⟩
  · obtain ⟨-, r', rfl⟩ := exec_next_cases ht
    obtain rfl : r' = r := by simpa using hans
    exact exec_next_congr ht hi hp (by simpa using hsel)

/-- Settles O2: the high half of the value shown, where R43 clears the reserved slices and those above an `EXT` of 0. -/
theorem rd32hReturnsHighHalf : Obligations.Rd32hReturnsHighHalf := by
  intro f q s ha
  have ⟨_, hf, _⟩ := ha
  have hnarrow (h32 : regWidth s.impl = 32) : exec (.rd32h f q) s = .refused .offsetNotInScope :=
    exec_refused_of_narrow (by simpa using ha) (rd32h_needs64 f q) h32
  refine ⟨hnarrow, fun hw hm => hnarrow ((regWidth_eq_32_iff _).mpr (haveMPAMExt_eq_false_of_wf hw hm)),
    fun h64 v hv => exec_rd32h_next ha h64 hv, fun h64 hv => ?_, fun h64 hw v hv => ?_⟩
  · rw [exec_rd32h]
    exact devRead_refused_of_idrValue_none _ (by simpa using ha) (fun _ => (regWidth_eq_64_iff _).mp h64)
      (by simpa using hv)
  · have hm := featMPAM_of_wf hw h64
    obtain ⟨hres, -⟩ := wfval64_of_idrValue hw hf h64 hv
    refine ⟨highHalf_eq_zero_of_ext hw hf h64 hv,
      (slice_highHalf v (by decide)).trans (extractLsb'_eq_zero_of_and_eq_zero hres 60 4 (by decide)),
      (slice_highHalf v (by decide)).trans (extractLsb'_eq_zero_of_and_eq_zero hres 40 16 (by decide)),
      (slice_highHalf v (by decide)).trans (extractLsb'_eq_zero_of_and_eq_zero hres 33 3 (by decide)),
      fun hr => ⟨?_, fun n w hn => ?_⟩⟩
    · rw [← eq_selected_of_idrValue hm hr hv]
      exact slice_highHalf v (by decide)
    · have hagree {a l : Nat} := slice_eq_of_setRis hw hm hf hv hn (a := a) (l := l)
      exact ⟨slice_highHalf_congr (by decide) (hagree (by decide)),
        slice_highHalf_congr (by decide) (hagree (by decide))⟩

/-- Settles O3: the value shown itself, with its well-formedness. -/
theorem rd64ReturnsWholeRegister : Obligations.Rd64ReturnsWholeRegister := by
  intro f q s ha
  have ⟨_, hf, _⟩ := ha
  refine ⟨exec_refused_of_narrow (by simpa using ha) (rd64_needs64 f q), fun h64 v hv => exec_rd64_next ha h64 hv,
    fun h64 hv => ?_, fun h64 hw v hv => ?_⟩
  · rw [exec_rd64]
    exact devRead_refused_of_idrValue_none _ (by simpa using ha) (fun _ => (regWidth_eq_64_iff _).mp h64)
      (by simpa using hv)
  · have hwf := wfval64_of_idrValue hw hf h64 hv
    have ⟨hres, hupper, _⟩ := hwf
    exact ⟨hwf, hres, hupper, fun hr => eq_selected_of_idrValue (featMPAM_of_wf hw h64) hr hv⟩

/-- Settles O7: D2 makes the register 32 bits wide, and R53 shows 0 whatever the selectors are. -/
theorem withoutMpamLocationIsRes0 : Obligations.WithoutMpamLocationIsRes0 := by
  intro f q s hw hm ha
  have hext := haveMPAMExt_eq_false_of_wf hw hm
  have h32 := (regWidth_eq_32_iff _).mpr hext
  have hanswer : writeAnswer s.impl = .ignored := by simp [writeAnswer, hm]
  refine ⟨h32, exec_rd32l_next ha (idrValue_of_featMPAM_false f hm), fun d => hanswer ▸ exec_wr32l_next ha d,
    fun i hn hf hq => exec_refused_of_narrow (by rwa [hf, hq]) hn h32, fun x k => ?_⟩
  have hbytes : regBytes s.impl = 4 := by rw [regBytes, h32]
  have hzero : idrValue { s with risSel := x } f = some 0#64 := idrValue_of_featMPAM_false f hm
  split
  · next hk => rw [readByte_of_lt hzero (by simpa [hbytes] using hk), byteOf, BitVec.extractLsb'_zero]
  · next hk => exact readByte_of_ge f (by simpa [hbytes] using hk)

/-- Settles O34: each half would be answered in `s`, and the two accesses change nothing that either depends on. -/
theorem pairEqualsWholeRead : Obligations.PairEqualsWholeRead := by
  intro f q s v rest ha h64 hv
  have hlow := exec_rd32l_next ha hv
  have hhigh := exec_rd32h_next ha h64 hv
  exact ⟨lowHalf v, highHalf v, pairValue_halves v, exec_rd64_next ha h64 hv, two_steps_next hlow hhigh,
    two_steps_next hhigh hlow⟩

/-- Settles O35: the low half comes from the value shown before and the high half from the one after, and these agree
outside `RISDEP`. -/
theorem tornPairMixesTwoInstances : Obligations.TornPairMixesTwoInstances := by
  intro f q s n rest hw ha h64 hr hold hnew hq
  have ⟨_, hf, _⟩ := ha
  have hm := featMPAM_of_wf hw h64
  have hvold := idrValue_of_hasRis hm hr hold
  have hvnew : idrValue (setRis f n s) f = some (s.impl.idrOf f n) := by
    simpa using idrValue_of_hasRis (s := setRis f n s) hm hr (by simpa using hnew)
  have hold0 := outsideRisDep_of_idrValue hw hm hf hvold
  have hnew0 := outsideRisDep_of_idrValue (s := setRis f n s) hw hm hf hvnew
  have hagree := hold0.trans hnew0.symm
  have hlow := exec_rd32l_next ha hvold
  have hhigh := exec_rd32h_next (s := setRis f n s) ha h64 hvnew
  obtain ⟨t₁, t₂, hstep₁, hstep₂, hstep₃⟩ := torn_steps_next hlow hhigh hq
  exact ⟨_, _, t₁, t₂, _, hstep₁, hstep₂, hstep₃, rfl, PerFrame.get_set_same .., rfl,
    slice_low_pairValue _ _ (by decide), slice_high_pairValue _ _ (a := 4) (by decide),
    (outsideRisDep_pairValue hagree).trans hnew0,
    wfval64_pairValue hagree (wfval64_of_idrValue (s := setRis f n s) hw hf h64 hvnew)⟩

/-- Settles O4: the response is `writeAnswer`, the same for the three widths and every data. -/
theorem writesAreDiscarded : Obligations.WritesAreDiscarded := by
  intro f q s ha
  exact ⟨writeAnswer s.impl, fun hm => if_pos hm, fun hm => if_neg (by simp [hm]), exec_wr32l_next ha,
    exec_wr32h_next ha, exec_wr64_next ha⟩

/-- Settles O9: the event at the head is the access, and an access that decodes is delivered as its operation. -/
theorem stepRunsDecodedOperation : Obligations.StepRunsDecodedOperation :=
  ⟨fun _ _ _ hq => step_of_queue_cons hq,
    fun _ _ _ _ hq hi => (step_of_queue_cons hq).trans (deliverAccess_of_decode_ok hi _),
    fun s _ _ _ hi => deliverAccess_of_decode_ok (decode_of_decodeTableWord hi) s⟩

/-- Settles O10: inside the page the event brings the access at that offset; elsewhere it is routed nowhere. -/
theorem memoryAccessReachesFrameOffset : Obligations.MemoryAccessReachesFrameOffset := by
  intro s m rest hq
  rw [step_of_queue_cons hq]
  refine ⟨fun hlo hhi => ?_, fun hout => deliver_of_route_none ((route_eq_none_iff ..).mpr hout)⟩
  exact deliver_of_brings (.inr ⟨m, rfl, hlo, hhi, rfl⟩)

end Sys2Proof.Proofs

/-!
Proofs of the statements about feature discovery (41_feature_discovery.md): what a value that was read tells of the
layout, of the other registers and of the ranges of identifiers, and how each set of properties is discovered.
-/
namespace Sys2Proof.Proofs
open Sys2Proof Sys2Proof.Machine

section Discovery

theorem getLsbD_lowHalf (v : Word64) {k : Nat} (hk : k < 32) : (lowHalf v).getLsbD k = v.getLsbD k := by
  simp [lowHalf, hk]

/-- R121: a value with `EXT` 1 is shown only in the 64-bit layout, since the bit is RES0 in the other (R35, R47). -/
theorem regWidth_eq_64_of_ext {s : State} {f : Frame} {v : Word64} (hw : s.impl.WF)
    (hf : s.impl.frames.get f = true) (hv : idrValue s f = some v) (hext : v.getLsbD 28 = true) :
    regWidth s.impl = 64 := by
  rw [regWidth_eq_64_iff, ← Bool.not_eq_false, ← regWidth_eq_32_iff]
  intro h32
  have h28 := (wfval32_of_idrValue hw hf h32 hv).2
  rw [hext] at h28
  cases h28

/-- What a completed `RD32L` tells: it was accepted, and it answered with the low half of the value shown (R102). -/
theorem exec_rd32l_next_cases {f : Frame} {q : Requester} {s t : State} (h : exec (.rd32l f q) s = .next t) :
    Accepts s q f ∧ ∃ v, idrValue s f = some v ∧ t = recordAnswer (.rd32l f q) (.word32 (lowHalf v)) s := by
  rw [exec_rd32l] at h
  obtain ⟨hn, v, hv, ht⟩ := (devRead_eq_next_iff ..).mp h
  have ha := ((firstRefusal_encode_eq_none_iff ..).mp hn).1
  rw [rd32l_requester, rd32l_frame] at ha
  exact ⟨ha, v, by rwa [rd32l_frame] at hv, ht⟩

/-- R52, R53: after `SetRIS(f, r)` with `r` at most `RIS_MAX` the frame shows `IDR[f][r]`. -/
theorem idrValue_setRis_same {s : State} {f : Frame} {r : RisNum} (hm : s.impl.featMPAM = true)
    (hr : hasRis (s.impl.idrOf f 0#4) = true) (hmax : r ≤ risMax (s.impl.idrOf f 0#4)) :
    idrValue (setRis f r s) f = some (s.impl.idrOf f r) := by
  simpa using idrValue_of_hasRis (s := setRis f r s) hm hr (by simpa using hmax)

end Discovery

section Maxima

theorem extractField_toNat (v : Word64) (x : Field) :
    (extractField v x).toNat = (v.extractLsb' x.lo x.width).toNat := by
  have hwidth : x.width ≤ 64 := by cases x <;> decide
  rw [extractField_eq_slice, BitVec.toNat_setWidth_of_le hwidth]

/-- R84: a field of `w` bits holds a number below `2 ^ w`. -/
theorem extractField_toNat_lt (v : Word64) (x : Field) : (extractField v x).toNat < 2 ^ x.width := by
  rw [extractField_toNat]
  exact BitVec.isLt _

theorem partidSupported_iff (v : Word64) (n : Nat) :
    partidSupported v n = true ↔ n ≤ (extractField v .partidMax).toNat := by
  rw [extractField_toNat]
  exact decide_eq_true_iff

theorem pmgSupported_iff (v : Word64) (n : Nat) :
    pmgSupported v n = true ↔ n ≤ (extractField v .pmgMax).toNat := by
  rw [extractField_toNat]
  exact decide_eq_true_iff

end Maxima

/-- Settles O36: `SetRIS(f, r)` makes the frame show `IDR[f][r]`, and the read that follows returns what is shown. -/
theorem selectThenReadDiscoversInstance : Obligations.SelectThenReadDiscoversInstance := by
  intro f q s r rest hw ha h64 hr hmax hq
  have ⟨_, hf, _⟩ := ha
  have hm := featMPAM_of_wf hw h64
  have hv := idrValue_setRis_same hm hr hmax
  have hread := exec_rd64_next (s := setRis f r s) ha h64 hv
  exact ⟨_, _, step_setRis hq, step_encode_next hread rfl rfl rfl rfl, PerFrame.get_set_same .., rfl, rfl,
    outsideRisDep_of_idrValue (s := setRis f r s) hw hm hf hv⟩

/-- Settles O40: `EXT` is bit 28 of the low half as of the value, and the first read disturbs nothing that the second
depends on. -/
theorem extMeansHighHalfReadable : Obligations.ExtMeansHighHalfReadable := by
  intro f q s t lo hw h hlo hext
  obtain ⟨ha, v, hv, rfl⟩ := exec_rd32l_next_cases h
  obtain rfl : lowHalf v = lo := by simpa using hlo
  rw [getLsbD_lowHalf v (by decide)] at hext
  have ⟨_, hf, _⟩ := ha
  have h64 := regWidth_eq_64_of_ext hw hf hv hext
  exact ⟨h64, highHalf v, exec_rd32h_next (s := recordAnswer _ _ s) ha h64 hv⟩

/-- Settles O41: each predicate asks its presence condition (R120) before it looks at its bit. -/
theorem absentFieldsSayNothing : Obligations.AbsentFieldsSayNothing := by
  refine fun v => ⟨fun h28 => ?_, fun h29 => ?_, fun h28 => ?_⟩
  · have hext : ¬ext v = true := ne_true_of_eq_false h28
    exact ⟨if_neg hext, if_neg (hext ·.1), if_neg (hext ·.1), if_neg (hext ·.1), if_neg hext, if_neg hext,
      if_neg hext, if_neg hext⟩
  · have himpl : ¬hasImplIdr v = true := ne_true_of_eq_false h29
    exact ⟨if_neg (himpl ·.2), if_neg (himpl ·.2)⟩
  · have hext : ext v = true := h28
    have hinstances : resourceInstances v = some (if hasRis v = true then (risMax v).toNat + 1 else 1) := if_pos hext
    exact ⟨if_pos hext, fun h39 => if_pos ⟨hext, h39⟩, fun h29 => ⟨if_pos ⟨hext, h29⟩, if_pos ⟨hext, h29⟩⟩,
      if_pos hext, fun h32 => hinstances.trans (congrArg some (if_neg (ne_true_of_eq_false h32))),
      fun h32 => hinstances.trans (congrArg some (if_pos h32))⟩

/-- Settles O42: `registerExists`, row by row of R122. -/
theorem alwaysPresentFieldsReportRegisters : Obligations.AlwaysPresentFieldsReportRegisters := fun _ =>
  ⟨rfl, rfl, rfl, rfl, rfl, rfl, rfl, rfl, rfl, rfl⟩

/-- Settles O43: at most the maximum is below one more, and a field of 16 (8) bits is below `2 ^ 16` (`2 ^ 8`). -/
theorem maximaAreInclusive : Obligations.MaximaAreInclusive := fun v n =>
  ⟨(partidSupported_iff v n).trans Nat.lt_succ_iff.symm, (pmgSupported_iff v n).trans Nat.lt_succ_iff.symm,
    extractField_toNat_lt v .partidMax, extractField_toNat_lt v .pmgMax⟩

end Sys2Proof.Proofs

/-!
Proofs of the statements about exceptions and power (60_exceptions.md): what a change of the power domain does to the
state, and what an access meets while the domain is off.
-/
namespace Sys2Proof.Proofs
open Sys2Proof Sys2Proof.Machine

section Power

/-- R152, D16: switching to the other level draws a fresh selector for each frame. -/
theorem setPower_of_ne {b : Bool} {s : State} (h : b ≠ s.powered) :
    setPower b s =
      { s with
        powered := b
        risSel := ⟨Config.freeRisSel s.draws, Config.freeRisSel (s.draws + 1)⟩
        draws := s.draws + 2 } :=
  if_neg h

/-- R171: a change of the power domain is one step. -/
theorem step_power {s : State} {b : Bool} {rest : List Event} (hq : s.queue = .power b :: rest) :
    step s = .next (setPower b (withQueue rest s)) :=
  step_of_queue_cons hq

/-- R101: an operation is refused for the first check of R86 that the access it is written as fails. -/
theorem exec_of_firstRefusal {s : State} {i : Instr} {r : Refusal} (h : firstRefusal s (encode i) = some r) :
    exec i s = .refused r := by
  rw [← deliverAccess_of_decode_ok (decode_encode i)]
  exact deliverAccess_of_firstRefusal h

end Power

/-- Settles O12: taking the event leaves the power and the counter, so `setPower` decides by the level held before. -/
theorem powerChangeFreesSelectors : Obligations.PowerChangeFreesSelectors := by
  intro s b rest hq
  rw [step_power hq]
  exact ⟨fun h => congrArg _ (setPower_of_eq (s := withQueue rest s) h),
    fun h => congrArg _ (setPower_of_ne (s := withQueue rest s) h)⟩

/-- Settles O14: an operation is a read or a write, so the first check of R86 it can fail is the power. -/
theorem unpoweredRefusesEveryOperation : Obligations.UnpoweredRefusesEveryOperation := fun _ i hp =>
  exec_of_firstRefusal (firstRefusal_of_unpowered (isReadOrWrite_encode i) hp)

end Sys2Proof.Proofs

/-!
Proofs of the statements about reset and hazards (70_reset_and_hazards.md): what a run keeps, the launch premises, the
first read after reset, and a run beside other agents.
-/
namespace Sys2Proof.Proofs
open Sys2Proof Sys2Proof.Machine

section Runs
variable {s t : State} {k : Nat}

/-- A run that completes is a step that completes, and a run from where it leads. -/
theorem run_succ_next_cases (h : Host.Core.run Sys2Proof.core (k + 1) s = .next t) :
    ∃ m, step s = .next m ∧ Host.Core.run Sys2Proof.core k m = .next t := by
  cases hs : step s with
  | next m => exact ⟨m, rfl, by rwa [run_succ_of_step_next hs] at h⟩
  | fault r => cases r
  | refused r => rw [run_succ_of_step_refused hs] at h; cases h

/-- R70: a step takes the event at the head of the device order, if there is one. -/
theorem step_next_queue (h : step s = .next t) : t.queue = s.queue.tail :=
  (stepTakesOneEvent s t h).1

theorem mem_queue_of_step_next (h : step s = .next t) {e : Event} (he : e ∈ t.queue) : e ∈ s.queue :=
  List.mem_of_mem_tail (step_next_queue h ▸ he)

/-- R70: a run takes as many events as it has steps, or all there are. -/
theorem run_next_queue (h : Host.Core.run Sys2Proof.core k s = .next t) : t.queue = s.queue.drop k := by
  induction k generalizing s with
  | zero => cases h; rfl
  | succ k ih =>
    obtain ⟨m, hm, hrun⟩ := run_succ_next_cases h
    rw [ih hrun, step_next_queue hm, List.drop_tail]

/-- What no step ends and lets no step be refused makes a run of any length complete. -/
theorem run_completes {P : State → Prop} (completes : ∀ s, P s → ∃ t, step s = .next t)
    (keeps : ∀ s t, P s → step s = .next t → P t) (k : Nat) (hs : P s) :
    ∃ t, Host.Core.run Sys2Proof.core k s = .next t := by
  induction k generalizing s with
  | zero => exact ⟨s, rfl⟩
  | succ k ih =>
    obtain ⟨m, hm⟩ := completes s hs
    rw [run_succ_of_step_next hm]
    exact ih (keeps s m hs hm)

end Runs

section View
variable {f : Frame} {s t u : State}

/-- The states agree on all that the answer to an operation on `f` depends on: the implementation, the power and the
selector of `f` (`exec_next_congr`). -/
structure SameView (f : Frame) (s t : State) : Prop where
  impl : t.impl = s.impl
  powered : t.powered = s.powered
  risSel : t.risSel.get f = s.risSel.get f

theorem SameView.trans (h : SameView f s t) (h' : SameView f t u) : SameView f s u :=
  ⟨h'.impl.trans h.impl, h'.powered.trans h.powered, h'.risSel.trans h.risSel⟩

theorem SameView.symm (h : SameView f s t) : SameView f t s :=
  ⟨h.impl.symm, h.powered.symm, h.risSel.symm⟩

theorem SameView.idrValue_eq (h : SameView f s t) : idrValue t f = idrValue s f :=
  idrValue_congr f h.impl h.risSel

/-- R54, R68: only a `SetRIS` of `f` and a change of the power change the view of `f`. -/
theorem sameView_of_step_next (h : step s = .next t) (hpower : .power (!s.powered) ∉ s.queue.head?)
    (hris : ∀ n, .setRis f n ∉ s.queue.head?) : SameView f s t := by
  rcases step_next_mutable_cases h with ⟨rest, hq⟩ | ⟨hp, -, hsel⟩
  · exact absurd (by simp [hq]) hpower
  · refine ⟨step_next_impl h, hp, ?_⟩
    rcases hsel with heq | ⟨g, n, rest, hq, hset⟩
    · rw [heq]
    · rw [hset]
      refine PerFrame.get_set_of_ne _ _ fun hfg => hris n ?_
      simp [hq, hfg]

/-- R165: where every event is quiet for `f`, no run changes the view of `f`. -/
theorem sameView_of_quiet_run {k : Nat} (h : Host.Core.run Sys2Proof.core k s = .next t)
    (hquiet : ∀ e ∈ s.queue, Quiet f e) : SameView f s t := by
  induction k generalizing s with
  | zero => cases h; exact ⟨rfl, rfl, rfl⟩
  | succ k ih =>
    obtain ⟨m, hm, hrun⟩ := run_succ_next_cases h
    have hsm : SameView f s m := sameView_of_step_next hm
      (fun he => hquiet _ (List.mem_of_mem_head? he)) fun n he => hquiet _ (List.mem_of_mem_head? he) rfl
    exact hsm.trans (ih hrun fun e he => hquiet e (mem_queue_of_step_next hm he))

end View

section Launch
variable {s t : State} {f : Frame}

/-- (P-power): a step keeps it, for no event that changes the power is left. -/
theorem poweredThroughout_step (hp : PoweredThroughout s) (h : step s = .next t) : PoweredThroughout t := by
  obtain ⟨hon, hoff⟩ := hp
  refine ⟨?_, fun he => hoff (mem_queue_of_step_next h he)⟩
  rcases step_next_mutable_cases h with ⟨rest, hq⟩ | ⟨hpow, -⟩
  · exact absurd (by simp [hq, hon]) hoff
  · exact hpow.trans hon

/-- Under (P-power) a step keeps the view of each frame that it does not select for. -/
theorem sameView_of_poweredThroughout (hp : PoweredThroughout s) (h : step s = .next t)
    (hris : ∀ n, .setRis f n ∉ s.queue.head?) : SameView f s t := by
  obtain ⟨hon, hoff⟩ := hp
  exact sameView_of_step_next h (fun he => hoff (List.mem_of_mem_head? (by simpa [hon] using he))) hris

theorem SameView.selected (hv : SameView f s t) (h : Selected s f) : Selected t f := by
  rwa [Selected, hv.impl, hv.risSel]

/-- R52, R53: a `SetRIS` of a number up to `RIS_MAX` establishes (P-sel) by its first arm. -/
theorem selected_of_step_setRis {n : RisNum} {rest : List Event} (hq : s.queue = .setRis f n :: rest)
    (hn : hasRis (s.impl.idrOf f 0#4) = true → n ≤ risMax (s.impl.idrOf f 0#4)) (h : step s = .next t) :
    Selected t f := by
  rw [step_setRis hq] at h
  cases h
  simpa [Selected] using hn

/-- The first arm of (P-sel): a step keeps it. -/
theorem selected_step (hp : PoweredThroughout s) (hn : NamesInstances s.impl s.queue) (h : step s = .next t)
    (hs : Selected s f) : Selected t f := by
  by_cases hris : ∃ n, .setRis f n ∈ s.queue.head?
  · obtain ⟨n, he⟩ := hris
    obtain ⟨rest, hq⟩ := List.head?_eq_some_iff.mp he
    exact selected_of_step_setRis hq (hn f n (List.mem_of_mem_head? he)) h
  · exact (sameView_of_poweredThroughout hp h (not_exists.mp hris)).selected hs

/-- (P-sel): a step keeps it. The `SetRIS` that the second arm promises, once taken, gives the first. -/
theorem selected_or_selectsBeforeRead_step (hp : PoweredThroughout s) (hn : NamesInstances s.impl s.queue)
    (h : step s = .next t) (hs : Selected s f ∨ SelectsBeforeRead s.impl f s.queue) :
    Selected t f ∨ SelectsBeforeRead s.impl f t.queue := by
  rw [step_next_queue h]
  rcases hs with hsel | hbefore
  · exact .inl (selected_step hp hn h hsel)
  · cases hq : s.queue with
    | nil => exact .inr trivial
    | cons e rest =>
      rw [hq] at hbefore
      rcases hbefore with ⟨n, rfl, hmax⟩ | ⟨-, hrest⟩
      · exact .inl (selected_of_step_setRis hq (fun _ => hmax) h)
      · exact .inr hrest

/-- (P-frames) of a run holds of each part of it. -/
theorem touchesFrames_of_subset {p : Impl} {run run' : List Event} (hsub : run' ⊆ run) (h : TouchesFrames p run) :
    TouchesFrames p run' :=
  ⟨fun e he => h.1 e (hsub he), fun f n he => h.2 f n (hsub he)⟩

end Launch

/-- Settles O33: no quiet event changes what `f` shows, and each step takes one event. -/
theorem quietRunKeepsValue : Obligations.QuietRunKeepsValue := by
  intro k s t f h hquiet
  have hv := sameView_of_quiet_run h hquiet
  exact ⟨hv.idrValue_eq, hv.impl, hv.powered, run_next_queue h⟩

/-- Settles O48: each premise is kept, and the device order only loses events. -/
theorem stepKeepsLaunchPremises : Obligations.StepKeepsLaunchPremises := by
  intro s t hlaunch hnames h
  obtain ⟨hp, hw, hframes, hsel⟩ := hlaunch
  have hsub : t.queue ⊆ s.queue := fun _ => mem_queue_of_step_next h
  rw [Machine.Launch, step_next_impl h]
  exact ⟨⟨poweredThroughout_step hp h, hw, touchesFrames_of_subset hsub hframes,
    fun f => selected_or_selectsBeforeRead_step hp hnames h (hsel f)⟩, fun f n he => hnames f n (hsub he)⟩

section Completing
variable {s t : State}

/-- An event of the environment, or one that brings an access that is a row of the selector table in this layout. -/
def Admitted (p : Impl) (e : Event) : Prop :=
  (∃ f n, e = .setRis f n) ∨ (∃ b, e = .power b)
    ∨ ∃ a i, Brings p e a ∧ decode a = .ok i ∧ i.WF p.haveMPAMExt

/-- The device order is a run under the launch premises, every `SetRIS` of which meets
`NamesInstances` and every event of which is admitted. -/
structure Launched (s : State) : Prop where
  launch : Launch s s.queue
  names : NamesInstances s.impl s.queue
  admitted : ∀ e ∈ s.queue, Admitted s.impl e

theorem launched_step (hs : Launched s) (h : step s = .next t) : Launched t := by
  obtain ⟨hlaunch, hnames⟩ := stepKeepsLaunchPremises s t hs.launch hs.names h
  refine ⟨hlaunch, hnames, fun e he => ?_⟩
  rw [step_next_impl h]
  exact hs.admitted e (mem_queue_of_step_next h he)

/-- (P-sel): when the first event reads a frame, the first arm holds of it, for no `SetRIS` comes before the read. -/
theorem selected_of_head_read {e : Event} {rest : List Event} {a : Access} (hb : Brings s.impl e a)
    (hread : a.kind = .read) (hs : Selected s a.frame ∨ SelectsBeforeRead s.impl a.frame (e :: rest)) :
    Selected s a.frame := by
  rcases hs with hsel | ⟨n, rfl, -⟩ | ⟨hnone, -⟩
  · exact hsel
  · exact absurd hb (not_brings_setRis _ _ n a)
  · exact absurd rfl (hnone a hb hread)

/-- R86, R53: under the launch premises the access the first event brings passes every check and, if it is a read, finds
a value. -/
theorem completes_of_launch {e : Event} {rest : List Event} {a : Access} {i : Instr} (hlaunch : Launch s (e :: rest))
    (hb : Brings s.impl e a) (hi : decode a = .ok i) (hw : i.WF s.impl.haveMPAMExt) : Completes s a := by
  obtain ⟨⟨hon, -⟩, -, ⟨hframes, -⟩, hsel⟩ := hlaunch
  obtain ⟨hf, hq⟩ := hframes e List.mem_cons_self a hb
  rw [← deliverAccess_completes_iff, deliverAccess_completes_iff_checks]
  refine ⟨?_, fun hread => idrValue_eq_some_of_selected (selected_of_head_read hb hread (hsel a.frame))⟩
  have hfields := decode_ok_fields hi
  rw [← firstRefusal_of_decode_ok hi, firstRefusal_encode_eq_none_iff, hfields.1, hfields.2]
  exact ⟨⟨hon, hf, hq⟩, hw⟩

theorem step_completes_of_launched (hs : Launched s) : ∃ t, step s = .next t := by
  rw [step_completes_iff]
  cases hq : s.queue with
  | nil => exact .inl rfl
  | cons e rest =>
    have hlaunch := hs.launch
    rw [hq] at hlaunch
    refine .inr ⟨e, rest, rfl, (hs.admitted e (by simp [hq])).imp_right (Or.imp_right ?_)⟩
    rintro ⟨a, i, hb, hi, hw⟩
    exact ⟨a, hb, completes_of_launch hlaunch hb hi hw⟩

end Completing

/-- Settles O49: `Launched` is an invariant under which every step completes. -/
theorem launchedRunCompletes : Obligations.LaunchedRunCompletes := by
  intro s hlaunch hnames hadmitted
  have hall : ∀ k, ∃ t, Host.Core.run Sys2Proof.core k s = .next t := fun k =>
    run_completes (fun _ => step_completes_of_launched) (fun _ _ => launched_step) k ⟨hlaunch, hnames, hadmitted⟩
  obtain ⟨t, ht⟩ := hall s.queue.length
  exact ⟨hall, t, ht, by rw [run_next_queue ht, List.drop_length]⟩

section FirstRead
variable {s : State} {f : Frame} {q : Requester}

/-- R100, R104: the access of an accepted `RD64`, when it is the next event, is answered with the value shown. -/
theorem step_rd64_next {v : Word64} {rest : List Event} (hq : s.queue = .access (encode (.rd64 f q)) :: rest)
    (ha : Accepts s q f) (h64 : regWidth s.impl = 64) (hv : idrValue s f = some v) :
    step s = .next (recordAnswer (.rd64 f q) (.word64 v) (withQueue rest s)) :=
  step_encode_next (exec_rd64_next ha h64 hv) hq rfl rfl rfl

end FirstRead

/-- Settles O26: the read returns what is shown, and the selector decides by R53 what that is. -/
theorem firstReadAfterReset : Obligations.FirstReadAfterReset := by
  intro p x f q hw hext hf hq
  have hm : p.featMPAM = true := hw.1 hext
  have h64 : regWidth p = 64 := (regWidth_eq_64_iff p).mpr hext
  have ha : ∀ queue, Accepts { State.resetOf p true x with queue := queue } q f := fun _ => ⟨rfl, hf, hq⟩
  refine ⟨fun hr => ?_, fun hr hmax => ?_, fun hr hlt => ?_⟩
  · exact step_rd64_next rfl (ha _) h64 (idrValue_of_hasRis_false hm hr)
  · have hv := idrValue_of_hasRis (s := State.resetOf p true x) hm hr hmax
    exact ⟨_, step_rd64_next rfl (ha _) h64 hv, outsideRisDep_of_idrValue hw hm hf hv⟩
  · rw [step_encode rfl]
    exact (readsRefuseSelectorAboveRisMax f q _ (ha _) hm h64 hr hlt).2.2

section Beside
variable {f : Frame} {s m u : State}

/-- An event of a run on `f`: it selects for `f`, or accesses `f`. -/
def OnFrame (f : Frame) (e : Event) : Prop :=
  (∃ n, e = .setRis f n) ∨ ∃ a, e = .access a ∧ a.frame = f

theorem step_next_answers (h : step s = .next m) : ∃ new, m.answers = new ++ s.answers := by
  rcases (stepTakesOneEvent s m h).2 with heq | ⟨a, heq, -⟩
  · exact ⟨[], heq⟩
  · exact ⟨[a], heq⟩

/-- R166: an event of a run on `f` does the same, and is answered the same, in each state with the same view of `f`. -/
theorem step_onFrame_next {e : Event} {rest run : List Event} (hv : SameView f s u) (he : OnFrame f e)
    (hs : s.queue = e :: rest) (hu : u.queue = e :: run) (h : step s = .next m) :
    ∃ m' new, step u = .next m' ∧ SameView f m m' ∧ m.answers = new ++ s.answers ∧ m'.answers = new ++ u.answers := by
  rw [step_of_queue_cons hs] at h
  rw [step_of_queue_cons hu]
  rcases he with ⟨n, rfl⟩ | ⟨a, rfl, rfl⟩
  · cases h
    exact ⟨_, [], rfl, ⟨hv.impl, hv.powered, by simp⟩, rfl, rfl⟩
  · obtain ⟨i, hi, hexec⟩ := deliverAccess_next_cases h
    obtain ⟨-, r, rfl⟩ := exec_next_cases hexec
    have hframe : i.frame = a.frame := (decode_ok_fields hi).2
    refine ⟨recordAnswer i r (withQueue run u), [⟨i, r⟩], ?_, ⟨hv.impl, hv.powered, hv.risSel⟩, rfl, rfl⟩
    rw [deliver, deliverAccess_of_decode_ok hi]
    exact exec_next_congr hexec hv.impl hv.powered (by rw [hframe]; exact hv.risSel)

/-- R166, R170: a run on `f` alone, from a state with the same view of `f`, goes as it does inside a device order that
is quiet beside it. -/
theorem run_alone_next {t : State} {run order : List Event} (hv : SameView f s u) (hp : PoweredThroughout s)
    (hs : s.queue = order) (hu : u.queue = run) (hquiet : QuietBeside f run order) (hrun : ∀ e ∈ run, OnFrame f e)
    (h : Host.Core.run Sys2Proof.core order.length s = .next t) :
    ∃ (w : State) (own all : List Answer), Host.Core.run Sys2Proof.core run.length u = .next w
      ∧ w.answers = own ++ u.answers ∧ t.answers = all ++ s.answers ∧ own.Sublist all
      ∧ w.risSel.get f = t.risSel.get f := by
  induction order generalizing s u run with
  | nil =>
    obtain rfl : run = [] := hquiet
    cases h
    exact ⟨u, [], [], rfl, rfl, rfl, .refl _, hv.risSel⟩
  | cons e rest ih =>
    obtain ⟨m, hm, hrest⟩ := run_succ_next_cases h
    have hmp := poweredThroughout_step hp hm
    have hmq : m.queue = rest := by rw [step_next_queue hm, hs, List.tail_cons]
    rcases hquiet with ⟨run', rfl, hquiet⟩ | ⟨hother, hquiet⟩
    · obtain ⟨he, hrun'⟩ := List.forall_mem_cons.mp hrun
      obtain ⟨m', new, hm', hv', hans, hans'⟩ := step_onFrame_next hv he hs hu hm
      have hmq' : m'.queue = run' := by rw [step_next_queue hm', hu, List.tail_cons]
      obtain ⟨w, own, all, hw, hown, hall, hsub, hsel⟩ := ih hv' hmp hmq hmq' hquiet hrun' hrest
      refine ⟨w, own ++ new, all ++ new, ?_, ?_, ?_, hsub.append (.refl new), hsel⟩
      · rw [List.length_cons, run_succ_of_step_next hm', hw]
      · rw [hown, hans', List.append_assoc]
      · rw [hall, hans, List.append_assoc]
    · have hsm : SameView f s m := sameView_of_poweredThroughout hp hm fun n hn => hother n (by simpa [hs] using hn)
      obtain ⟨new, hans⟩ := step_next_answers hm
      obtain ⟨w, own, all, hw, hown, hall, hsub, hsel⟩ := ih (hsm.symm.trans hv) hmp hmq hu hquiet hrun hrest
      refine ⟨w, own, all ++ new, hw, hown, ?_, hsub.trans (List.sublist_append_left all new), hsel⟩
      rw [hall, hans, List.append_assoc]

end Beside

/-- Settles O50: the run alone starts with the same view of `f`. -/
theorem otherAgentsDoNotDisturbQuietRun : Obligations.OtherAgentsDoNotDisturbQuietRun := by
  intro s t f run hp hquiet hrun h
  exact run_alone_next (u := { s with queue := run }) ⟨rfl, rfl, rfl⟩ hp rfl rfl hquiet hrun h

/-- Settles O13. -/
theorem idleStepChangesNothing : Obligations.IdleStepChangesNothing := fun _ => step_of_queue_nil

end Sys2Proof.Proofs
